-- ==== Sys2Proof/Word.lean ====
section
/-! DEFINITION. The widths of FMPP's values (00_scope R9): a byte, a 32-bit bus word, a 128-bit lane. All are unsigned. -/

namespace Sys2Proof

/-- A byte of INBUF or OUTBUF (R9). -/
abbrev Byte := BitVec 8

/-- A host bus word (R9). -/
abbrev Word := BitVec 32

/-- One lane of the state register file, and one entry of a ROM (R9, R20, R33). -/
abbrev Lane := BitVec 128

end Sys2Proof
end

