-- ==== Sys2Proof/Config.lean ====
section
/-! DEFINITION. The parameters of 00_scope R6: what one instance of the hardware fixes when it is built. They are no state
(10_state R36); every operation takes them as an argument. The one instance that `exec` and `step` run is opaque: of it only
R6's constraints are known (DESIGN CHOICE, log 1). Also the free values `draw()` (DESIGN CHOICE, log 2). -/

namespace Sys2Proof

/-- `WMAX`, lanes in the state register file (R6, R20). -/
def Config.wMax : Nat := 16
/-- `WF`, lanes of the fixed-width constructions (R6). -/
def Config.wf : Nat := 6
/-- `IN_BYTES_MAX` (R6). -/
def Config.inBytesMax : Nat := 64
/-- `OUT_BYTES` (R6). -/
def Config.outBytes : Nat := 32
/-- `ALPHA` (R6). -/
def Config.alpha : Nat := 3
/-- `N_SPREAD` (R6, C1). -/
def Config.nSpread : Nat := 91
/-- `SPREAD_FULL_LO` (R6). -/
def Config.spreadFullLo : Nat := 4
/-- `SPREAD_FULL_HI` (R6). -/
def Config.spreadFullHi : Nat := 87

/-- The parameters R6 leaves to the instance. A matrix is the list of its rows. No relation between two ROMs is assumed (R8). -/
structure Params where
  /-- `P`, the field modulus. -/
  P : Nat
  /-- `MDS_S`. -/
  mdsS : List (List Lane)
  /-- `T_S`. -/
  tS : List Lane
  /-- `N_RESCUE`. -/
  nRescue : Nat
  /-- `MDS_R`. -/
  mdsR : List (List Lane)
  /-- `T_R`. -/
  tR : List Lane
  /-- `N_FEISTEL`. -/
  nFeistel : Nat
  /-- `RC_F`. -/
  rcF : List Lane
  /-- `W`, sponge width. -/
  W : Nat
  /-- `R`, sponge rate. -/
  R : Nat
  /-- `D`, digest size. -/
  D : Nat
  /-- `N`, sponge rounds. -/
  N : Nat
  /-- `C`, constant cycle length. -/
  C : Nat
  /-- `MDS_W`. -/
  mdsW : List (List Lane)
  /-- `MDS_W_INV`. -/
  mdsWInv : List (List Lane)
  /-- `ARK_W`, `2W` rows by `C` columns. -/
  arkW : List (List Lane)
  /-- `BASE`, platform address of the window. -/
  base : Nat
  /-- `CYCLES`, clock cycles per engine step. -/
  cycles : Nat
deriving DecidableEq, Repr

/-- Entry `k` of a flat ROM (R60). An entry past the ROM's size, which no command forms (R60), is 0 here (DESIGN CHOICE, log 12). -/
def romAt (t : List Lane) (k : Nat) : Lane := t.getD k 0#128

/-- Entry `[i][j]` of a two-dimensional ROM (R60); past its size 0, as above (DESIGN CHOICE, log 12). -/
def matAt (m : List (List Lane)) (i j : Nat) : Lane := (m.getD i []).getD j 0#128

/-- Every entry is a field element: `[0, P)` (R6). -/
def canonicalTable (P : Nat) (t : List Lane) : Prop := ∀ v ∈ t, v.toNat < P

/-- `rows` rows of `cols` field elements (R6). -/
structure MatrixShape (P rows cols : Nat) (m : List (List Lane)) : Prop where
  nrows : m.length = rows
  ncols : ∀ r ∈ m, r.length = cols
  canonical : ∀ r ∈ m, canonicalTable P r

/-- The inverse law `MDS_W · MDS_W_INV = I` over the field (R127), as the sum of products reduced once. -/
def inverseLaw (P w : Nat) (a b : List (List Lane)) : Prop :=
  ∀ i < w, ∀ k < w,
    (∑ j ∈ Finset.range w, (matAt a i j).toNat * (matAt b j k).toNat) % P = (if i = k then 1 else 0) % P

/-- R6's constraints, all but the lower bound on `P` that exists only so that V1 can hold. The toy configuration of
95_test_vectors meets exactly these. -/
structure Params.WellFormed (c : Params) : Prop where
  prime : c.P.Prime
  lt_lane : c.P < 2 ^ 128
  mod_three : c.P % 3 = 2
  three_lt : 3 < c.P
  mdsS : MatrixShape c.P 6 6 c.mdsS
  tS_len : 546 ≤ c.tS.length
  tS : canonicalTable c.P c.tS
  nRescue : c.nRescue ≤ 65535
  mdsR : MatrixShape c.P 6 6 c.mdsR
  tR_len : 6 * (2 * c.nRescue + 1) ≤ c.tR.length
  tR : canonicalTable c.P c.tR
  nFeistel : c.nFeistel ≤ 65535
  rcF_len : c.rcF.length = c.nFeistel
  rcF : canonicalTable c.P c.rcF
  w_pos : 1 ≤ c.W
  w_le : c.W ≤ Config.wMax
  r_pos : 1 ≤ c.R
  r_le : c.R ≤ c.W
  d_pos : 1 ≤ c.D
  d_le : c.D ≤ c.R
  n_le : c.N ≤ 65535
  c_pos : 1 ≤ c.C
  c_le : c.C ≤ 65535
  mdsW : MatrixShape c.P c.W c.W c.mdsW
  mdsWInv : MatrixShape c.P c.W c.W c.mdsWInv
  inverse : inverseLaw c.P c.W c.mdsW c.mdsWInv
  arkW : MatrixShape c.P (2 * c.W) c.C c.arkW
  cycles : 1 ≤ c.cycles

theorem Params.WellFormed.pos {c : Params} (h : c.WellFormed) : 0 < c.P := h.prime.pos

/-- R6's constraints, all of them. -/
structure Params.Admissible (c : Params) : Prop extends c.WellFormed where
  kat_lt : 219573261639035687061374710349412548701 < c.P

/-- One admissible parameter set, chosen only because its modulus `2^108 * 7^7 + 1` has a short primality proof: it shows
that R6's constraints can be met, so that the opaque instance below exists. It is the value of nothing (DESIGN CHOICE, log 1). -/
def Config.someParams : Params where
  P := 2 ^ 108 * 7 ^ 7 + 1
  mdsS := List.replicate 6 (List.replicate 6 0#128)
  tS := List.replicate 546 0#128
  nRescue := 0
  mdsR := List.replicate 6 (List.replicate 6 0#128)
  tR := List.replicate 6 0#128
  nFeistel := 0
  rcF := []
  W := 1
  R := 1
  D := 1
  N := 0
  C := 1
  mdsW := [[1#128]]
  mdsWInv := [[1#128]]
  arkW := [[0#128], [0#128]]
  base := 0
  cycles := 1

theorem Config.someP_prime : Nat.Prime (2 ^ 108 * 7 ^ 7 + 1) := by
  refine lucas_primality _ 3 (by norm_num; reduce_mod_char) fun q hq hd => ?_
  rw [Nat.add_sub_cancel] at hd
  have hq27 : q = 2 ∨ q = 7 := by
    rcases (Nat.Prime.dvd_mul hq).1 hd with h | h
    · exact .inl ((Nat.prime_dvd_prime_iff_eq hq Nat.prime_two).1 (hq.dvd_of_dvd_pow h))
    · exact .inr ((Nat.prime_dvd_prime_iff_eq hq (by norm_num)).1 (hq.dvd_of_dvd_pow h))
  rcases hq27 with rfl | rfl
  all_goals
    norm_num
    reduce_mod_char
    exact fun h => absurd (congrArg ZMod.val h) (by decide)

theorem canonicalTable_replicate_zero {P : Nat} (hP : 0 < P) (n : Nat) : canonicalTable P (List.replicate n 0#128) :=
  fun v hv => by rw [List.eq_of_mem_replicate hv]; exact hP

theorem matrixShape_replicate_zero {P : Nat} (hP : 0 < P) (rows cols : Nat) :
    MatrixShape P rows cols (List.replicate rows (List.replicate cols 0#128)) where
  nrows := List.length_replicate
  ncols r hr := by rw [List.eq_of_mem_replicate hr, List.length_replicate]
  canonical r hr := by rw [List.eq_of_mem_replicate hr]; exact canonicalTable_replicate_zero hP cols

theorem matrixShape_one {P : Nat} (hP : 1 < P) : MatrixShape P 1 1 [[1#128]] where
  nrows := rfl
  ncols r hr := by rw [List.mem_singleton.1 hr]; rfl
  canonical r hr v hv := by
    rw [List.mem_singleton.1 hr] at hv
    rw [List.mem_singleton.1 hv]
    exact hP

theorem Config.someParams_admissible : Config.someParams.Admissible :=
  have pos : 0 < Config.someParams.P := by decide
  { prime := Config.someP_prime
    lt_lane := by decide
    mod_three := by decide
    three_lt := by decide
    mdsS := matrixShape_replicate_zero pos 6 6
    tS_len := (List.length_replicate (n := 546) (a := 0#128)).ge
    tS := canonicalTable_replicate_zero pos 546
    nRescue := Nat.zero_le _
    mdsR := matrixShape_replicate_zero pos 6 6
    tR_len := (List.length_replicate (n := 6) (a := 0#128)).ge
    tR := canonicalTable_replicate_zero pos 6
    nFeistel := Nat.zero_le _
    rcF_len := rfl
    rcF := fun _ hv => absurd hv List.not_mem_nil
    w_pos := le_refl 1
    w_le := by decide
    r_pos := le_refl 1
    r_le := le_refl 1
    d_pos := le_refl 1
    d_le := le_refl 1
    n_le := Nat.zero_le _
    c_pos := le_refl 1
    c_le := by decide
    mdsW := matrixShape_one (by decide)
    mdsWInv := matrixShape_one (by decide)
    inverse := fun i hi k hk => by
      obtain rfl : i = 0 := Nat.lt_one_iff.1 hi
      obtain rfl : k = 0 := Nat.lt_one_iff.1 hk
      decide
    arkW := matrixShape_replicate_zero pos 2 1
    cycles := le_refl 1
    kat_lt := by decide }

/-- One instance of the hardware: parameters that meet R6. The field's initial values serve only to show that the type
has a member. -/
structure Config.Hardware where
  params : Params := Config.someParams
  ok : params.Admissible := by exact Config.someParams_admissible
deriving Inhabited

/-- The instance `exec` and `step` run. It has no body: of its parameters nothing is known but R6's constraints (DESIGN CHOICE, log 1). -/
opaque Config.hardware : Config.Hardware

/-- The parameters `exec` and `step` run with (R6, R36). -/
def Config.params : Params := Config.hardware.params

theorem Config.params_admissible : Config.params.Admissible := Config.hardware.ok

theorem Config.params_wellFormed : Config.params.WellFormed := Config.params_admissible.toWellFormed

/-- The `n`-th `draw()` (R10): a value under no law (DESIGN CHOICE, log 2). -/
opaque Config.draw (n : Nat) : Word

end Sys2Proof
end

