-- ==== Sys2Proof/Syntax.lean ====
section
/-! DEFINITION. The five commands of spec/opcode_table.json, the command-word format CMD32 (30_encoding R80, R81), and what
can arrive from outside: host accesses (20_memory R52 to R54), waits (R90) and the reset input (70_reset R230). -/

namespace Sys2Proof

/-- The commands of 30_encoding R84. A command has no operand field: its operands are INLEN, INBUF and the ROMs (R82). -/
inductive Instr where
  /-- HSPREAD, the spread S-box construction (R140). -/
  | hspread
  /-- HRESCUE, the S-box/inverse-S-box construction (R143). -/
  | hrescue
  /-- HFEISTEL, the Feistel shift-register construction (R147). -/
  | hfeistel
  /-- SDIGEST, the parametric sponge digest (R161). -/
  | sdigest
  /-- INVMDS, the inverse sponge matrix on its own (R165). -/
  | invmds
deriving DecidableEq, Repr

/-- The fields of a command word, format CMD32 (R81). -/
structure Cmd32 where
  /-- RSV, bits 31:4. -/
  rsv : BitVec 28
  /-- OP, bits 3:0. -/
  op : BitVec 4
deriving DecidableEq, Repr

/-- What a host access does: `MemRead`, or `MemWrite` of a value (R10). -/
inductive AccessOp where
  | read
  | write (v : Word)
deriving DecidableEq, Repr

/-- One host access: its window offset, its width in bytes, and what it does (R52 to R54). The value of a write that is not
four bytes wide plays no part: R54 answers every such access with a bus error. -/
structure Access where
  off : Nat
  bytes : Nat
  op : AccessOp
deriving DecidableEq, Repr

/-- What happens next, as decided outside the block: the interleaving that R187 leaves free (DESIGN CHOICE, log 3). -/
inductive Event where
  /-- A host access at a window offset. -/
  | access (a : Access)
  /-- A host access at a platform address: it reaches the block when the address lies in its window (R50). -/
  | platform (addr bytes : Nat) (op : AccessOp)
  /-- WAIT (R90): no access comes before the engine's next step. -/
  | wait
  /-- The reset input is asserted (R230). -/
  | assertReset
  /-- The reset input is released (R230); if it was not asserted, log 18 says what happens (DESIGN CHOICE). -/
  | releaseReset
deriving DecidableEq, Repr

/-- What the host gets back from one access (R52, R53, R55). -/
inductive Reply where
  /-- A read's data. -/
  | data (w : Word)
  /-- A write reached its register, whether or not the sequencer then rejected it (DEDUCED, log 5). -/
  | done
  /-- The error response of R55. -/
  | busError
deriving DecidableEq, Repr

/-- An event is an edge of the reset input. -/
def Event.isReset : Event → Bool
  | .access _ => false
  | .platform _ _ _ => false
  | .wait => false
  | .assertReset => true
  | .releaseReset => true

/-- An event in which the host makes no access and the reset input does not change (R90). -/
def Event.isWait : Event → Bool
  | .access _ => false
  | .platform _ _ _ => false
  | .wait => true
  | .assertReset => false
  | .releaseReset => false

end Sys2Proof
end

