-- ==== Sys2Proof/Machine/State.lean ====
section
/-! DEFINITION. The state of one FMPP (10_state), as plain data, with its reset value (R37), the codes of a rejection
(60_exceptions R200), and the reasons a step can stop. `Fmpp` is the machine state: no parameter, no ROM, no host program
(R36). `State` puts the host's side beside it, as the interface of `step` asks (DESIGN CHOICE, log 3). -/

namespace Sys2Proof.Machine

/-- A byte buffer: pairs of a byte number and its value, byte numbers strictly rising, no value 0. An unlisted byte reads
0, the reset contents of INBUF and OUTBUF (R27, R28; DESIGN CHOICE, log 14). -/
abbrev Memory := List Host.Cell

/-- The state register file `S[0] .. S[15]` (R20). -/
abbrev Lanes := Vector Lane 16

/-- The contract violations of R200, in the order of R203. -/
inductive Err where
  | busy
  | badCommand
  | inputTooLong
  | noncanonical
deriving DecidableEq, Repr

/-- The machine state of FMPP: all of 10_state R37, and the level of the reset input. -/
structure Fmpp where
  /-- `S[0..15]` (R20). -/
  lanes : Lanes
  /-- ROUND (R23). -/
  round : BitVec 32
  /-- MODE, the same storage as STATUS.LASTOP (R25). -/
  lastop : BitVec 4
  /-- STATUS.BUSY (R26). -/
  busy : Bool
  /-- STATUS.DONE (R26). -/
  done : Bool
  /-- STATUS.ERR (R26). -/
  err : Bool
  /-- STATUS.ERRCODE (R26, R200). -/
  errcode : BitVec 4
  /-- INLEN (R29). -/
  inlen : BitVec 32
  /-- INBUF (R27). -/
  inbuf : Memory
  /-- OUTBUF (R28). -/
  outbuf : Memory
  /-- The level of the reset input: true while it is asserted (R230; DESIGN CHOICE, log 8). -/
  resetIn : Bool
deriving DecidableEq, Repr

/-- FMPP's machine state, and three fields of the model's own, which are the host's side of the port. -/
structure State extends Fmpp where
  /-- The model's own: what is still to come from outside, oldest first (R187; DESIGN CHOICE, log 3). -/
  pending : List Event
  /-- The model's own: what the host has been answered, newest first (DEDUCED, log 5). -/
  replies : List Reply
  /-- The model's own: how many `draw()` values have been taken (R10; DESIGN CHOICE, log 2). -/
  draws : Nat
deriving DecidableEq, Repr

/-- Where the model stops with a fault. -/
inductive Fault where
  /-- Raised by the engine's turn when BUSY = 1 and neither R186 nor R188 enables a step: MODE is no opcode, or ROUND is
  above the command's round count. No run reaches such a state. Safe: the spec gives it no next state (DESIGN CHOICE, log 9). -/
  | noEnabledStep
deriving DecidableEq, Repr

/-- What the model refuses. -/
inductive Refusal where
  /-- Raised by `exec` for a command that has no meaning yet. Safe. No command is left so. -/
  | notModelled (mnemonic : String)
  /-- Raised by a host access to the window while the reset input is asserted: the spec gives it no defined effect
  (R231, R240, 93_implementation_defined I9). Safe (DESIGN CHOICE, log 8). -/
  | accessDuringReset
deriving DecidableEq, Repr

/-- The machine right after reset (R37, R230, R232), the reset input released. The model's own fields are empty (DESIGN CHOICE, log 4). -/
def State.reset : State where
  lanes := Vector.replicate 16 0#128
  round := 0#32
  lastop := 0#4
  busy := false
  done := false
  err := false
  errcode := 0#4
  inlen := 0#32
  inbuf := []
  outbuf := []
  resetIn := false
  pending := []
  replies := []
  draws := 0

end Sys2Proof.Machine
end

