-- ==== Sys2Proof/WellFormed.lean ====
section
/-! DEFINITION. Which command words and which host accesses are well formed (30_encoding R81, R84, R85; 20_memory R54). -/

namespace Sys2Proof

/-- The OP value of a command (R84). -/
def Instr.op : Instr → BitVec 4
  | .hspread => 0x1#4
  | .hrescue => 0x2#4
  | .hfeistel => 0x3#4
  | .sdigest => 0x4#4
  | .invmds => 0x5#4

/-- The fields of a command's word: its OP, and RSV = 0 (R81). -/
def Instr.fields (i : Instr) : Cmd32 := { rsv := 0#28, op := i.op }

/-- The OP values R84 gives a command. -/
def legalOp (op : BitVec 4) : Bool := (0x1#4).ule op && op.ule 0x5#4

/-- RSV is 0 and OP is one of the five (R81, R85). -/
def Cmd32.wellFormed (f : Cmd32) : Bool := f.rsv == 0#28 && legalOp f.op

/-- A command is well formed when its word's fields are. -/
def Instr.wellFormed (i : Instr) : Bool := i.fields.wellFormed

/-- One aligned 32-bit word (R54). -/
def Access.wellFormed (a : Access) : Bool := a.bytes == 4 && a.off % 4 == 0

end Sys2Proof
end

