-- ==== Sys2Proof/Machine/Flags.lean ====
section
/-! DEFINITION. The STATUS register as the host reads it, the error codes, and the three things that write STATUS:
a rejection, an acceptance and a completion (10_state R26; 60_exceptions R200, R201; 44_sequencer R182, R188). -/

namespace Sys2Proof.Machine

/-- The code of a contract violation (R200). -/
def errCode : Err → BitVec 4
  | .busy => 1#4
  | .badCommand => 2#4
  | .inputTooLong => 3#4
  | .noncanonical => 4#4

/-- STATUS as a 32-bit word; its reserved bits read 0 (R26). -/
def statusWord (s : State) : Word :=
  0#20 ++ s.errcode ++ s.lastop ++ 0#1 ++ BitVec.ofBool s.err ++ BitVec.ofBool s.done ++ BitVec.ofBool s.busy

/-- `reject(e)`: only ERR and ERRCODE change, and the newest code wins (R201, R205, R206). -/
def State.reject (s : State) (e : Err) : State := { s with err := true, errcode := errCode e }

/-- What acceptance writes to STATUS (R182). -/
def State.flagAccepted (s : State) (i : Instr) : State :=
  { s with busy := true, done := false, err := false, errcode := 0#4, lastop := i.op }

/-- What completion writes to STATUS (R188). -/
def State.flagCompleted (s : State) : State := { s with busy := false, done := true }

end Sys2Proof.Machine
end

