-- ==== Sys2Proof/Machine/Ops.lean ====
section
/-! DEFINITION. The named operations over the state: byte buffers, lanes, byte order, answering the host, presenting a
command (44_sequencer R180 to R182, 60_exceptions R201) and the reset input (70_reset R230). -/

namespace Sys2Proof.Machine

/-! Byte buffers (R27, R28). -/

/-- `BUF.byte(k)`. -/
def byteAt : Memory → Nat → Byte
  | [], _ => 0#8
  | (a, v) :: m, k => if a = k then v else byteAt m k

/-- Put a cell in front, unless it holds what an unlisted byte reads as. -/
def consCell (k : Nat) (v : Byte) (m : Memory) : Memory := if v = 0#8 then m else (k, v) :: m

/-- `BUF.byte(k) <- v`, keeping the canonical form. -/
def setByte : Memory → Nat → Byte → Memory
  | [], k, v => consCell k v []
  | (a, w) :: m, k, v =>
    if k < a then consCell k v ((a, w) :: m)
    else if k = a then consCell k v m
    else (a, w) :: setByte m k v

/-- The buffer whose bytes `lo .. lo+n-1` are given by `f`, all others 0. -/
def bytesFrom (f : Nat → Byte) : Nat → Nat → Memory
  | 0, _ => []
  | n + 1, lo => consCell lo (f lo) (bytesFrom f n (lo + 1))

/-- Four bytes written at `k`, the lowest from bits 7:0 (R53, R56). -/
def setWord (m : Memory) (k : Nat) (v : Word) : Memory :=
  setByte (setByte (setByte (setByte m k (v.extractLsb' 0 8)) (k + 1) (v.extractLsb' 8 8)) (k + 2) (v.extractLsb' 16 8))
    (k + 3) (v.extractLsb' 24 8)

/-- The canonical form of a buffer of 256 bytes, from byte `lo` on: byte numbers strictly rising and below 256, no value 0. -/
def Memory.wfFrom : Nat → Memory → Bool
  | _, [] => true
  | lo, (a, v) :: m => decide (lo ≤ a) && decide (a < 256) && v != 0#8 && Memory.wfFrom (a + 1) m

/-- The canonical form of a buffer (DESIGN CHOICE, log 14). -/
def Memory.wf (m : Memory) : Bool := Memory.wfFrom 0 m

/-! Byte order (R56, R57). -/

/-- `sum of f(j) * 2^(8j)` over `j < n`: little-endian bytes as a number (R10, `lane_of`). -/
def leNat (f : Nat → Byte) : Nat → Nat
  | 0 => 0
  | n + 1 => leNat f n + (f n).toNat * 2 ^ (8 * n)

/-- The 32-bit word of four bytes (R52, R56). -/
def leWord (f : Nat → Byte) : Word := BitVec.ofNat 32 (leNat f 4)

/-- The 128-bit lane of sixteen bytes (R57). -/
def leLane (f : Nat → Byte) : Lane := BitVec.ofNat 128 (leNat f 16)

/-- Byte `j` of a lane: bits `8j+7 : 8j` (R10, `put_lane`; R32). -/
def laneByte (v : Lane) (j : Nat) : Byte := v.extractLsb' (8 * j) 8

/-! Lanes (R20). -/

/-- `S[i]`. A lane number above 15, which no rule forms, reads 0 here (DESIGN CHOICE, log 12). -/
def laneAt (S : Lanes) (i : Nat) : Lane := if h : i < 16 then S[i] else 0#128

/-- The register file whose lane `i` is `f i`. -/
def lanesOf (f : Nat → Lane) : Lanes := Vector.ofFn fun i : Fin 16 => f i.val

/-- Write lanes `0 .. w-1` all at once, each computed from values before the layer (R12); the others stay. -/
def layer (w : Nat) (f : Nat → Lane) (S : Lanes) : Lanes := lanesOf fun i => if i < w then f i else laneAt S i

/-! Answering the host. -/

/-- The host's access is answered by `r`. -/
def State.answer (s : State) (r : Reply) : State := { s with replies := r :: s.replies }

/-! Presenting a command. -/

/-- The canonical check of R102. -/
def canon (c : Params) (v : Lane) : Bool := decide (v.toNat < c.P)

/-- `accept(op)` (R182): STATUS, ROUND <- 0, and the whole register file from the command's load. -/
def State.accept (s : State) (i : Instr) (loaded : Lanes) : State :=
  { s.flagAccepted i with round := 0#32, lanes := loaded }

/-- `check` for a decoded command (R181): the first error that applies, given the command's length limit and its input
lanes or elements. The input is looked at only when the length is legal. -/
def check (c : Params) (limit : Nat) (input : List Lane) (s : State) : Option Err :=
  if s.busy then some .busy
  else if limit < s.inlen.toNat then some .inputTooLong
  else if input.all (canon c) then none
  else some .noncanonical

/-- `present` for a decoded command (R180): reject with the first error, or accept. -/
def State.present (s : State) (c : Params) (i : Instr) (limit : Nat) (input : List Lane) (loaded : Lanes) : State :=
  match check c limit input s with
  | some e => s.reject e
  | none => s.accept i loaded

/-- `present` for a word that is no command: BUSY comes before BAD_COMMAND (R181, R203). -/
def State.presentIllegal (s : State) : State := s.reject (if s.busy then .busy else .badCommand)

/-! The reset input. -/

/-- Every piece of FMPP's state at its reset value, the reset input at `level`; what the host has seen and what is still to
come are not FMPP's and stay (R230). -/
def State.initialised (s : State) (level : Bool) : State :=
  { State.reset with resetIn := level, pending := s.pending, replies := s.replies, draws := s.draws }

end Sys2Proof.Machine
end

