-- ==== Sys2Proof/Machine/Field.lean ====
section
/-! DEFINITION. The field operations of the datapath (40_field_arith). They are defined on every lane value; on values at
or above `P`, to which the hardware never applies them (R111), they reduce (DESIGN CHOICE, log 11). -/

namespace Sys2Proof.Machine

/-- `fadd(a, b)`: the exact sum mod `P` (R103). -/
def fadd (c : Params) (a b : Lane) : Lane := BitVec.ofNat 128 ((a.toNat + b.toNat) % c.P)

/-- `fmul(a, b)`: the exact product mod `P` (R104). -/
def fmul (c : Params) (a b : Lane) : Lane := BitVec.ofNat 128 (a.toNat * b.toNat % c.P)

/-- `fexp(b, e)`: the exact power mod `P` (R105). No command uses `e = 0` (DESIGN CHOICE, log 11). -/
def fexp (c : Params) (b : Lane) (e : Nat) : Lane := BitVec.ofNat 128 (b.toNat ^ e % c.P)

/-- ALPHA_INV (R108). DEDUCED from R101: `3e = 1 + 2(P-1)` because `P mod 3 = 2` (DEDUCED, log 13). -/
def alphaInv (P : Nat) : Nat := (2 * P - 1) / 3

/-- `sbox(x)` (R106). -/
def sbox (c : Params) (x : Lane) : Lane := fexp c x Config.alpha

/-- `isbox(x)` (R107). -/
def isbox (c : Params) (x : Lane) : Lane := fexp c x (alphaInv c.P)

/-- `acc <- 0; for j = 0..n-1: acc <- fadd(acc, f(j))` (R124). -/
def fsum (c : Params) (f : Nat → Lane) : Nat → Lane
  | 0 => 0#128
  | n + 1 => fadd c (fsum c f n) (f n)

end Sys2Proof.Machine
end

