-- ==== Sys2Proof/Machine/Layers.lean ====
section
/-! DEFINITION. The round layers and the MDS multiplier (41_round_layers). Each reads only the lanes before it (R12). -/

namespace Sys2Proof.Machine

/-- `ark_flat(T, s)` (R120). -/
def arkFlat (c : Params) (t : List Lane) (s : Nat) (S : Lanes) : Lanes :=
  layer Config.wf (fun l => fadd c (laneAt S l) (romAt t (6 * s + l))) S

/-- `ark_2d(off, col)` (R121). -/
def ark2d (c : Params) (off col : Nat) (S : Lanes) : Lanes :=
  layer c.W (fun l => fadd c (laneAt S l) (matAt c.arkW (off + l) col)) S

/-- `sbox_all(w)` (R122). -/
def sboxAll (c : Params) (w : Nat) (S : Lanes) : Lanes := layer w (fun l => sbox c (laneAt S l)) S

/-- `sbox_last()` (R123): lane 5 only. -/
def sboxLast (c : Params) (S : Lanes) : Lanes :=
  layer Config.wf (fun l => if l = 5 then sbox c (laneAt S l) else laneAt S l) S

/-- `isbox_all(w)` (R125). -/
def isboxAll (c : Params) (w : Nat) (S : Lanes) : Lanes := layer w (fun l => isbox c (laneAt S l)) S

/-- `mds(M, w)` (R124): row `i` of `M` times the old lanes. -/
def mds (c : Params) (m : List (List Lane)) (w : Nat) (S : Lanes) : Lanes :=
  layer w (fun i => fsum c (fun j => fmul c (matAt m i j) (laneAt S j)) w) S

/-- `mds_inv(W)` (R126). -/
def mdsInv (c : Params) (S : Lanes) : Lanes := mds c c.mdsWInv c.W S

/-- `reverse(w)` (R129). -/
def reverseLanes (w : Nat) (S : Lanes) : Lanes := layer w (fun i => laneAt S (w - 1 - i)) S

/-- `feistel_step(r)` (R130): `f` goes to old lanes 1 to 5, which move down; the old lane 0 becomes lane 5. -/
def feistelStep (c : Params) (r : Nat) (S : Lanes) : Lanes :=
  layer Config.wf (fun i =>
    if i < 5 then fadd c (laneAt S (i + 1)) (sbox c (fadd c (laneAt S 0) (romAt c.rcF r))) else laneAt S 0) S

end Sys2Proof.Machine
end

