-- ==== Sys2Proof/Machine/Operands.lean ====
section
/-! DEFINITION. Operand assembly and output encoding (30_encoding R87 to R89; 42_fixed_width R146; 43_sponge R164, R166). -/

namespace Sys2Proof.Machine

/-- `lane_of(buf, i)`: bytes `16i .. 16i+15`, little-endian (R10, R88). -/
def laneOf (buf : Memory) (i : Nat) : Lane := leLane fun j => byteAt buf (16 * i + j)

/-- Lane `i` of `load_fixed(n)`: input byte `k < n` is byte `k mod 16` of lane `k div 16`, the rest is 0 (R58, R87). -/
def loadFixedLane (buf : Memory) (n i : Nat) : Lane :=
  leLane fun j => if 16 * i + j < n then byteAt buf (16 * i + j) else 0#8

/-- The six lanes of `load_fixed(n)` (R87), which acceptance checks (R181). -/
def fixedInput (buf : Memory) (n : Nat) : List Lane := (List.range 6).map (loadFixedLane buf n)

/-- `S[0..5] <- load_fixed(n)` over a zeroed register file (R182). -/
def loadFixed (buf : Memory) (n : Nat) : Lanes := lanesOf fun i => if i < 6 then loadFixedLane buf n i else 0#128

/-- The elements `0 .. n-1`, which acceptance checks (R88, R181). -/
def elementInput (buf : Memory) (n : Nat) : List Lane := (List.range n).map (laneOf buf)

/-- `S[i] <- lane_of(INBUF, i)` for `i < n` over a zeroed register file (R162, R165, R182). -/
def loadElements (buf : Memory) (n : Nat) : Lanes := lanesOf fun i => if i < n then laneOf buf i else 0#128

/-- OUTBUF after a completion: lanes `0 .. n-1` as 16-byte blocks, every further byte 0 (R28, R89). -/
def resultBytes (S : Lanes) (n : Nat) : Memory :=
  bytesFrom (fun k => if k < 16 * n then laneByte (laneAt S (k / 16)) (k % 16) else 0#8) 256 0

end Sys2Proof.Machine
end

