-- ==== Sys2Proof/Machine/FixedWidth.lean ====
section
/-! DEFINITION. HSPREAD, HRESCUE and HFEISTEL (42_fixed_width): what writing each command does (R180 to R182), its round
step and its result. -/

namespace Sys2Proof.Machine

/-! HSPREAD (R140 to R142). -/

/-- Presenting HSPREAD to an instance with parameters `c` (R140, R180 to R182). -/
def hspread (c : Params) (s : State) : State :=
  s.present c .hspread Config.inBytesMax (fixedInput s.inbuf s.inlen.toNat) (loadFixed s.inbuf s.inlen.toNat)

/-- Writing HSPREAD's word to CMD. -/
def execHspread (s : State) : Host.Outcome State Fault Refusal := .next (hspread Config.params s)

/-- `spread_full(r)` (R142). -/
def spreadFull (r : Nat) : Bool := decide (r < Config.spreadFullLo) || decide (Config.spreadFullHi ≤ r)

/-- `spread_round(r)` on the lanes (R141): constants, S-box, matrix. -/
def spreadRound (c : Params) (r : Nat) (S : Lanes) : Lanes :=
  let A := arkFlat c c.tS r S
  mds c c.mdsS Config.wf (if spreadFull r then sboxAll c Config.wf A else sboxLast c A)

/-! HRESCUE (R143 to R145). -/

/-- `rescue_prologue()` (R144), part of the acceptance. -/
def rescuePrologue (c : Params) (S : Lanes) : Lanes := arkFlat c c.tR 0 S

/-- Presenting HRESCUE (R143, R180 to R182). -/
def hrescue (c : Params) (s : State) : State :=
  s.present c .hrescue Config.inBytesMax (fixedInput s.inbuf s.inlen.toNat)
    (rescuePrologue c (loadFixed s.inbuf s.inlen.toNat))

/-- Writing HRESCUE's word to CMD. -/
def execHrescue (s : State) : Host.Outcome State Fault Refusal := .next (hrescue Config.params s)

/-- `rescue_round(k)` on the lanes (R145, C3): inverse S-box, matrix, constants, then forward S-box, matrix, constants. -/
def rescueRound (c : Params) (k : Nat) (S : Lanes) : Lanes :=
  let A := arkFlat c c.tR (2 * k + 1) (mds c c.mdsR Config.wf (isboxAll c Config.wf S))
  arkFlat c c.tR (2 * k + 2) (mds c c.mdsR Config.wf (sboxAll c Config.wf A))

/-! HFEISTEL (R147, R148). -/

/-- Presenting HFEISTEL (R147, R180 to R182). -/
def hfeistel (c : Params) (s : State) : State :=
  s.present c .hfeistel Config.inBytesMax (fixedInput s.inbuf s.inlen.toNat) (loadFixed s.inbuf s.inlen.toNat)

/-- Writing HFEISTEL's word to CMD. -/
def execHfeistel (s : State) : Host.Outcome State Fault Refusal := .next (hfeistel Config.params s)

/-- `feistel_round(r)` on the lanes (R148). -/
def feistelRound (c : Params) (r : Nat) (S : Lanes) : Lanes := feistelStep c r S

/-! The fixed-width result (R146). -/

/-- `fixed_result()`: two lanes, then zero bytes. -/
def fixedResult (S : Lanes) : Memory := resultBytes S 2

end Sys2Proof.Machine
end

