-- ==== Sys2Proof/Machine/Sponge.lean ====
section
/-! DEFINITION. SDIGEST and INVMDS (43_sponge): what writing each command does, its round step and its result. -/

namespace Sys2Proof.Machine

/-! SDIGEST (R160 to R164). -/

/-- `sponge_load(E, n)` on the lanes (R162): the elements in the low lanes, then the `W` lanes reversed. -/
def spongeLoad (c : Params) (buf : Memory) (n : Nat) : Lanes := reverseLanes c.W (loadElements buf n)

/-- Presenting SDIGEST (R161, R180 to R182). -/
def sdigest (c : Params) (s : State) : State :=
  s.present c .sdigest c.R (elementInput s.inbuf s.inlen.toNat) (spongeLoad c s.inbuf s.inlen.toNat)

/-- Writing SDIGEST's word to CMD. -/
def execSdigest (s : State) : Host.Outcome State Fault Refusal := .next (sdigest Config.params s)

/-- `sponge_round(i)` on the lanes (R163): constants, S-box, matrix; constants, inverse S-box, matrix. -/
def spongeRound (c : Params) (i : Nat) (S : Lanes) : Lanes :=
  let A := mds c c.mdsW c.W (sboxAll c c.W (ark2d c 0 (i % c.C) S))
  mds c c.mdsW c.W (isboxAll c c.W (ark2d c c.W (i % c.C) A))

/-- The lanes after `sponge_result()` (R164): reversed back. -/
def spongeFinal (c : Params) (S : Lanes) : Lanes := reverseLanes c.W S

/-- OUTBUF after `sponge_result()` (R164): the first `D` lanes, then zero bytes. -/
def spongeResult (c : Params) (S : Lanes) : Memory := resultBytes (spongeFinal c S) c.D

/-! INVMDS (R165, R166). -/

/-- Presenting INVMDS (R165, R180 to R182): no reversal. -/
def invmds (c : Params) (s : State) : State :=
  s.present c .invmds c.W (elementInput s.inbuf s.inlen.toNat) (loadElements s.inbuf s.inlen.toNat)

/-- Writing INVMDS's word to CMD. -/
def execInvmds (s : State) : Host.Outcome State Fault Refusal := .next (invmds Config.params s)

/-- INVMDS's one round step on the lanes (R126, R185). -/
def invmdsRound (c : Params) (S : Lanes) : Lanes := mdsInv c S

/-- OUTBUF after `invmds_result()` (R166): all `W` lanes, then zero bytes. -/
def invmdsResult (c : Params) (S : Lanes) : Memory := resultBytes S c.W

end Sys2Proof.Machine
end

