-- ==== Sys2Proof/Machine/Dispatch.lean ====
section
/-! DEFINITION. One arm per command: what writing its word to CMD does (44_sequencer R180). -/

namespace Sys2Proof.Machine

def exec (i : Instr) (s : State) : Host.Outcome State Fault Refusal :=
  match i with
  | .hspread => Sys2Proof.Machine.execHspread s
  | .hrescue => Sys2Proof.Machine.execHrescue s
  | .hfeistel => Sys2Proof.Machine.execHfeistel s
  | .sdigest => Sys2Proof.Machine.execSdigest s
  | .invmds => Sys2Proof.Machine.execInvmds s

end Sys2Proof.Machine
end

