-- ==== Sys2Proof/Decode.lean ====
section
/-! DEFINITION. Decoding a command word (30_encoding R86), total on every word and on any bytes, rejecting by name; and,
after it, the encoder written from R81 and R84. -/

namespace Sys2Proof

/-- Why bytes are no command. -/
inductive DecodeError where
  /-- Not exactly one 32-bit word (R54, R80). -/
  | notOneWord
  /-- RSV, bits 31:4, is not 0 (R85). -/
  | reservedBits
  /-- OP is 0x0 or 0x6 to 0xF (R85). -/
  | reservedOp
deriving DecidableEq, Repr

/-- The fields of a 32-bit word (R81). -/
def cmdFields (v : Word) : Cmd32 := { rsv := v.extractLsb' 4 28, op := v.extractLsb' 0 4 }

/-- The command an OP value selects (R84). -/
def opInstr (op : BitVec 4) : Option Instr :=
  if op = 0x1#4 then some .hspread
  else if op = 0x2#4 then some .hrescue
  else if op = 0x3#4 then some .hfeistel
  else if op = 0x4#4 then some .sdigest
  else if op = 0x5#4 then some .invmds
  else none

/-- R86, with the two illegal cases told apart. -/
def decode (v : Word) : Except DecodeError Instr :=
  if (cmdFields v).rsv ≠ 0#28 then .error .reservedBits
  else
    match opInstr (cmdFields v).op with
    | some i => .ok i
    | none => .error .reservedOp

/-- The word of four bytes, the lowest address in bits 7:0 (R56). -/
def wordOfBytes (b0 b1 b2 b3 : Byte) : Word := b3 ++ b2 ++ b1 ++ b0

/-- Decoding bytes as they lie in the window. -/
def decodeBytes : List Byte → Except DecodeError Instr
  | [b0, b1, b2, b3] => decode (wordOfBytes b0 b1 b2 b3)
  | _ => .error .notOneWord

/-- The word with the given fields (R81). -/
def Cmd32.word (f : Cmd32) : Word := f.rsv ++ f.op

/-- A command's word (R81, R84). -/
def encode (i : Instr) : Word := i.fields.word

/-- The four bytes of a word, lowest address first (R56). -/
def bytesOfWord (v : Word) : List Byte :=
  [v.extractLsb' 0 8, v.extractLsb' 8 8, v.extractLsb' 16 8, v.extractLsb' 24 8]

/-- A command's bytes as the host's write carries them (R56, R80). -/
def encodeBytes (i : Instr) : List Byte := bytesOfWord (encode i)

/-- The word whose low `nbits` bits are those of `w`, every bit above them 0. -/
def tableWord (nbits w : Nat) : Word := BitVec.ofNat 32 (w % 2 ^ nbits)

/-- What the decoder reads from a command word numbered as spec/opcode_table.json numbers it. -/
def decodeTableWord (nbits w : Nat) : Option Instr :=
  match decodeBytes (bytesOfWord (tableWord nbits w)) with
  | .ok i => some i
  | .error _ => none

end Sys2Proof
end

