-- ==== Sys2Proof/Machine/Engine.lean ====
section
/-! DEFINITION. The permutation engine (44_sequencer R185 to R188): which step a running command has enabled, and that step. -/

namespace Sys2Proof.Machine

/-- What each command's word does when it is presented to an instance with parameters `c`. -/
def presentCommand (c : Params) (i : Instr) (s : State) : State :=
  match i with
  | .hspread => hspread c s
  | .hrescue => hrescue c s
  | .hfeistel => hfeistel c s
  | .sdigest => sdigest c s
  | .invmds => invmds c s

/-- The round count `K` (R185). -/
def roundCount (c : Params) : Instr → Nat
  | .hspread => Config.nSpread
  | .hrescue => c.nRescue
  | .hfeistel => c.nFeistel
  | .sdigest => c.N
  | .invmds => 1

/-- The lanes after the round step at `ROUND = r` (R185, R186). -/
def roundLanes (c : Params) (i : Instr) (r : Nat) (S : Lanes) : Lanes :=
  match i with
  | .hspread => spreadRound c r S
  | .hrescue => rescueRound c r S
  | .hfeistel => feistelRound c r S
  | .sdigest => spongeRound c r S
  | .invmds => invmdsRound c S

/-- The lanes after completion (R188): only SDIGEST changes them (R164). -/
def finalLanes (c : Params) (i : Instr) (S : Lanes) : Lanes :=
  match i with
  | .hspread => S
  | .hrescue => S
  | .hfeistel => S
  | .sdigest => spongeFinal c S
  | .invmds => S

/-- OUTBUF after completion (R185, R188). -/
def finalOutbuf (c : Params) (i : Instr) (S : Lanes) : Memory :=
  match i with
  | .hspread => fixedResult S
  | .hrescue => fixedResult S
  | .hfeistel => fixedResult S
  | .sdigest => spongeResult c S
  | .invmds => invmdsResult c S

/-- A round step (R186): the lanes, and `ROUND <- r + 1` (R185). -/
def State.roundStep (s : State) (c : Params) (i : Instr) : State :=
  { s with lanes := roundLanes c i s.round.toNat s.lanes, round := s.round + 1#32 }

/-- The completion step (R188). -/
def State.complete (s : State) (c : Params) (i : Instr) : State :=
  { s.flagCompleted with lanes := finalLanes c i s.lanes, outbuf := finalOutbuf c i s.lanes }

/-- The engine's turn while BUSY = 1 (R186, R188). Where neither step is enabled, which no run reaches, it stops (DESIGN CHOICE, log 9). -/
def engineStep (c : Params) (s : State) : Host.Outcome State Fault Refusal :=
  match opInstr s.lastop with
  | none => .fault .noEnabledStep
  | some i =>
    if s.round.toNat < roundCount c i then .next (s.roundStep c i)
    else if s.round.toNat = roundCount c i then .next (s.complete c i)
    else .fault .noEnabledStep

/-- One turn without a host access: reset holds the block; a running command takes its enabled step; an idle block takes
none (R187, R215, R230). -/
def idleTurn (c : Params) (s : State) : Host.Outcome State Fault Refusal :=
  if s.resetIn then .next (s.initialised true)
  else if s.busy then engineStep c s
  else .next s

/-- Clock cycles a command takes after its accepting write: `K + 1` engine steps of CYCLES cycles each (R243). No clock is in
the state (DESIGN CHOICE, log 15). -/
def commandCycles (c : Params) (i : Instr) : Nat := (roundCount c i + 1) * c.cycles

end Sys2Proof.Machine
end

