-- ==== Sys2Proof/Machine/Window.lean ====
section
/-! DEFINITION. The host register window (20_memory R50 to R56), the step relation whose arguments are the parameters and the
host's move (10_state R36), and the machine's step: the oldest pending event is the move. -/

namespace Sys2Proof.Machine

/-- The window's size in bytes (R50). -/
def windowSize : Nat := 0x400

/-- The window offset of a platform address, when it lies in the window (R50). -/
def windowOffset (c : Params) (addr : Nat) : Option Nat :=
  if c.base ≤ addr ∧ addr < c.base + windowSize then some (addr - c.base) else none

/-- CONFIG0: `W`, `R`, `D`, `WMAX` (R31). -/
def config0 (c : Params) : Word :=
  BitVec.ofNat 8 Config.wMax ++ BitVec.ofNat 8 c.D ++ BitVec.ofNat 8 c.R ++ BitVec.ofNat 8 c.W

/-- CONFIG1: `N`, `C` (R31). -/
def config1 (c : Params) : Word := BitVec.ofNat 16 c.C ++ BitVec.ofNat 16 c.N

/-- CONFIG2: `N_RESCUE`, `N_FEISTEL` (R31). -/
def config2 (c : Params) : Word := BitVec.ofNat 16 c.nFeistel ++ BitVec.ofNat 16 c.nRescue

/-- CONFIG3: `N_SPREAD`, `SPREAD_FULL_LO`, `SPREAD_FULL_HI` (R31). -/
def config3 : Word :=
  BitVec.ofNat 8 Config.spreadFullHi ++ BitVec.ofNat 8 Config.spreadFullLo ++ BitVec.ofNat 16 Config.nSpread

/-- Byte `k` of the STATE window (R32). -/
def stateByte (S : Lanes) (k : Nat) : Byte := laneByte (laneAt S (k / 16)) (k % 16)

/-- ROUND, OUTBUF and STATE: what a read gives as `draw()` while BUSY = 1 (R34, R52). -/
def drawnWhileBusy (off : Nat) : Bool := off == 0x00C || (decide (0x200 ≤ off) && decide (off ≤ 0x3FF))

/-- The value of a read of ROUND, OUTBUF or STATE: `w`, or `draw()` while BUSY = 1 (R52). -/
def State.shown (s : State) (w : Word) : Reply := .data (if s.busy then Config.draw s.draws else w)

/-- `MemRead(off, 4)` at an aligned offset of the window (R52, R55). -/
def readReply (c : Params) (s : State) (off : Nat) : Reply :=
  if off = 0x004 then .data (statusWord s)
  else if off = 0x008 then .data s.inlen
  else if off = 0x00C then s.shown s.round
  else if off = 0x010 then .data (config0 c)
  else if off = 0x014 then .data (config1 c)
  else if off = 0x018 then .data (config2 c)
  else if off = 0x01C then .data config3
  else if 0x100 ≤ off ∧ off ≤ 0x1FF then .data (leWord fun j => byteAt s.inbuf (off - 0x100 + j))
  else if 0x200 ≤ off ∧ off ≤ 0x2FF then s.shown (leWord fun j => byteAt s.outbuf (off - 0x200 + j))
  else if 0x300 ≤ off ∧ off ≤ 0x3FF then s.shown (leWord fun j => stateByte s.lanes (off - 0x300 + j))
  else .busError

/-- A read: the answer, and one `draw()` taken if the answer is one. No FMPP state changes (R52, R61). -/
def hostRead (c : Params) (off : Nat) (s : State) : State :=
  { s.answer (readReply c s off) with draws := if s.busy && drawnWhileBusy off then s.draws + 1 else s.draws }

/-- A write of `v` to CMD (R53, R180): the command's meaning `ex`, or the rejection of a word that is no command. -/
def presentWord (ex : Instr → State → Host.Outcome State Fault Refusal) (v : Word) (s : State) :
    Host.Outcome State Fault Refusal :=
  match decode v with
  | .ok i => ex i s
  | .error _ => .next s.presentIllegal

/-- A write of INLEN, or its rejection (R53). -/
def writeInlen (v : Word) (s : State) : State := if s.busy then s.reject .busy else { s with inlen := v }

/-- A write of the INBUF word at byte `k`, or its rejection (R53). -/
def writeInbuf (k : Nat) (v : Word) (s : State) : State :=
  if s.busy then s.reject .busy else { s with inbuf := setWord s.inbuf k v }

/-- `MemWrite(off, 4, v)` at an aligned offset of the window (R53, R55). -/
def hostWrite (ex : Instr → State → Host.Outcome State Fault Refusal) (off : Nat) (v : Word) (s : State) :
    Host.Outcome State Fault Refusal :=
  if off = 0x000 then presentWord ex v (s.answer .done)
  else if off = 0x008 then .next (writeInlen v (s.answer .done))
  else if 0x100 ≤ off ∧ off ≤ 0x1FF then .next (writeInbuf (off - 0x100) v (s.answer .done))
  else .next (s.answer .busError)

/-- One host access. Outside the window it is not FMPP's (R51; DEDUCED, log 7). In the window it is refused while reset is asserted
(R231, R240; DESIGN CHOICE, log 8), answered by a bus error when it is no aligned 32-bit word (R54), and else a read or a write. -/
def hostAccess (c : Params) (ex : Instr → State → Host.Outcome State Fault Refusal) (a : Access) (s : State) :
    Host.Outcome State Fault Refusal :=
  if windowSize ≤ a.off then .next s
  else if s.resetIn then .refused .accessDuringReset
  else if a.wellFormed then
    match a.op with
    | .read => .next (hostRead c a.off s)
    | .write v => hostWrite ex a.off v s
  else .next (s.answer .busError)

/-- One step under the host's move `e` (R36: the host's choice and the parameters `c` are arguments). R187 lets the engine
take its step when the move is no access. Both edges of the reset input initialise the block (R230); so does a release that
finds the input not asserted, an event that R230 does not give (DESIGN CHOICE, log 18). -/
def onEvent (c : Params) (ex : Instr → State → Host.Outcome State Fault Refusal) (e : Event) (s : State) :
    Host.Outcome State Fault Refusal :=
  match e with
  | .access a => hostAccess c ex a s
  | .platform addr bytes op =>
    match windowOffset c addr with
    | some off => hostAccess c ex { off := off, bytes := bytes, op := op } s
    | none => .next s
  | .wait => idleTurn c s
  | .assertReset => .next (s.initialised true)
  | .releaseReset => .next (s.initialised false)

/-- The host's next move: the oldest pending event; with none pending, no access, so that an accepted command completes
(R187; DESIGN CHOICE, log 3). -/
def State.move (s : State) : Event :=
  match s.pending with
  | [] => .wait
  | e :: _ => e

/-- One step of an instance with parameters `c` whose commands mean `ex`, under the host's next move. -/
def machineStep (c : Params) (ex : Instr → State → Host.Outcome State Fault Refusal) (s : State) :
    Host.Outcome State Fault Refusal :=
  onEvent c ex s.move { s with pending := s.pending.tail }

/-- The commands' meanings for an instance with parameters `c` (R36: the parameters are an argument). -/
def execWith (c : Params) (i : Instr) (s : State) : Host.Outcome State Fault Refusal := .next (presentCommand c i s)

/-- What an outcome leaves of FMPP's machine state. -/
def fmppOutcome : Host.Outcome State Fault Refusal → Host.Outcome Fmpp Fault Refusal
  | .next s => .next s.toFmpp
  | .fault f => .fault f
  | .refused r => .refused r

/-- The step relation of R36 on FMPP's machine state: parameters and the host's move are arguments, no state. -/
def fmppStep (c : Params) (e : Event) (b : Fmpp) : Host.Outcome Fmpp Fault Refusal :=
  fmppOutcome (onEvent c (execWith c) e { toFmpp := b, pending := [], replies := [], draws := 0 })

/-- One step of an instance with parameters `c`. -/
def stepWith (c : Params) (s : State) : Host.Outcome State Fault Refusal := machineStep c (execWith c) s

end Sys2Proof.Machine
end

