-- ==== Sys2Proof/Machine/Step.lean ====
section
/-! DEFINITION. The machine's step, and placing a command word as the next thing that happens. -/

namespace Sys2Proof.Machine

/-- One step of the instance `Config.params`, whose commands mean `exec`. -/
def step (s : State) : Host.Outcome State Fault Refusal := machineStep Config.params exec s

/-- The state in which the host's next access is a write of the given word to CMD, the reset input released (DESIGN CHOICE, log 4). -/
def State.withFetchWord (s : State) (nbits w : Nat) : State :=
  { s with
    resetIn := false
    pending := .access { off := 0x000, bytes := 4, op := .write (tableWord nbits w) } :: s.pending }

end Sys2Proof.Machine
end

