-- ==== Sys2Proof/Safety.lean ====
section
/-! DEFINITION. The terms claims are stated in: what an acceptable command is, the lanes and results the rules name written
as sums of naturals or as elements of the field `ZMod P` (not through the model's own operations), and the invariants. -/

namespace Sys2Proof.Machine

/-! Input (R83, R87, R88, R102, R181). -/

/-- Lane `i` of `load_fixed(n)` as R87's loop adds it up, byte by byte. -/
def loopLane (buf : Memory) (i : Nat) : Nat → Nat
  | 0 => 0
  | k + 1 => loopLane buf i k + if k / 16 = i then (byteAt buf k).toNat * 2 ^ (8 * (k % 16)) else 0

/-- `lane_of(buf, i)` as R10's sum. -/
def elementValue (buf : Memory) (i : Nat) : Nat :=
  ∑ j ∈ Finset.range 16, (byteAt buf (16 * i + j)).toNat * 2 ^ (8 * j)

/-- The legal input length of a command (R83). -/
def limitOf (c : Params) : Instr → Nat
  | .hspread => 64
  | .hrescue => 64
  | .hfeistel => 64
  | .sdigest => c.R
  | .invmds => c.W

/-- Every input lane or element is below `P` (R181). -/
def InputCanonical (c : Params) (i : Instr) (s : State) : Prop :=
  match i with
  | .hspread => ∀ l < 6, loopLane s.inbuf l s.inlen.toNat < c.P
  | .hrescue => ∀ l < 6, loopLane s.inbuf l s.inlen.toNat < c.P
  | .hfeistel => ∀ l < 6, loopLane s.inbuf l s.inlen.toNat < c.P
  | .sdigest => ∀ k < s.inlen.toNat, elementValue s.inbuf k < c.P
  | .invmds => ∀ k < s.inlen.toNat, elementValue s.inbuf k < c.P

/-- `check` finds nothing wrong with the command (R181). -/
structure Acceptable (c : Params) (i : Instr) (s : State) : Prop where
  idle : s.busy = false
  length : s.inlen.toNat ≤ limitOf c i
  canonical : InputCanonical c i s

/-- The state `accept` leaves, but for its lanes (R182). -/
def acceptedFrame (i : Instr) (s : State) (S : Lanes) : State :=
  { s with busy := true, done := false, err := false, errcode := 0#4, lastop := i.op, round := 0#32, lanes := S }

/-- `reject` with a code (R201). -/
def rejectedFrame (code : BitVec 4) (s : State) : State := { s with err := true, errcode := code }

/-! Lanes as field elements (R13, R111). -/

/-- Lane `i` as an element of the field. -/
def fieldLane (P : Nat) (S : Lanes) (i : Nat) : ZMod P := ((laneAt S i).toNat : ZMod P)

/-- A vector plus constants (R120, R121). -/
def fieldArk {P : Nat} (k x : Nat → ZMod P) : Nat → ZMod P := fun l => x l + k l

/-- Entry-wise power (R122, R125). -/
def fieldPow {P : Nat} (e : Nat) (x : Nat → ZMod P) : Nat → ZMod P := fun l => x l ^ e

/-- Matrix times column (R124). -/
def fieldMds {P : Nat} (m : List (List Lane)) (w : Nat) (x : Nat → ZMod P) : Nat → ZMod P :=
  fun i => ∑ j ∈ Finset.range w, ((matAt m i j).toNat : ZMod P) * x j

/-- Slice `s` of a flat table (R60). -/
def fieldSlice (P : Nat) (t : List Lane) (s : Nat) : Nat → ZMod P := fun l => ((romAt t (6 * s + l)).toNat : ZMod P)

/-- Column `col` of ARK_W from row `off` (R60). -/
def fieldColumn (c : Params) (off col : Nat) : Nat → ZMod c.P := fun l => ((matAt c.arkW (off + l) col).toNat : ZMod c.P)

/-- HSPREAD's round over the field (R141, R142). -/
def fieldSpread (c : Params) (r : Nat) (x : Nat → ZMod c.P) : Nat → ZMod c.P :=
  let a := fieldArk (fieldSlice c.P c.tS r) x
  fieldMds c.mdsS 6 fun l => if r < 4 ∨ 87 ≤ r ∨ l = 5 then a l ^ 3 else a l

/-- HRESCUE's double round over the field (R145). -/
def fieldRescue (c : Params) (k : Nat) (x : Nat → ZMod c.P) : Nat → ZMod c.P :=
  let a := fieldArk (fieldSlice c.P c.tR (2 * k + 1)) (fieldMds c.mdsR 6 (fieldPow (alphaInv c.P) x))
  fieldArk (fieldSlice c.P c.tR (2 * k + 2)) (fieldMds c.mdsR 6 (fieldPow 3 a))

/-- HFEISTEL's round over the field (R130, R148). -/
def fieldFeistel (c : Params) (r : Nat) (x : Nat → ZMod c.P) : Nat → ZMod c.P :=
  fun i => if i = 5 then x 0 else x (i + 1) + (x 0 + ((romAt c.rcF r).toNat : ZMod c.P)) ^ 3

/-- SDIGEST's round over the field (R163). -/
def fieldSponge (c : Params) (i : Nat) (x : Nat → ZMod c.P) : Nat → ZMod c.P :=
  let a := fieldMds c.mdsW c.W (fieldPow 3 (fieldArk (fieldColumn c 0 (i % c.C)) x))
  fieldMds c.mdsW c.W (fieldPow (alphaInv c.P) (fieldArk (fieldColumn c c.W (i % c.C)) a))

/-- `S'` holds the field vector `y` in its low `w` lanes, canonically, and `S`'s lanes above. -/
def HoldsBelow (P w : Nat) (y : Nat → ZMod P) (S S' : Lanes) : Prop :=
  (∀ i < w, fieldLane P S' i = y i ∧ (laneAt S' i).toNat < P) ∧ ∀ i, w ≤ i → laneAt S' i = laneAt S i

/-! Results (R89). -/

/-- Byte `j` of a lane, as a number: bits `8j+7 : 8j`. -/
def laneByteValue (v : Lane) (j : Nat) : Nat := v.toNat / 2 ^ (8 * j) % 256

/-- OUTBUF holds lanes `0 .. n-1` of `S` as 16-byte blocks and zeros after them (R28, R89). -/
def HoldsResult (m : Memory) (S : Lanes) (n : Nat) : Prop :=
  ∀ k < 256, (byteAt m k).toNat = if k < 16 * n then laneByteValue (laneAt S (k / 16)) (k % 16) else 0

/-- All `K` rounds of a command, from round 0 on (R185). -/
def allRounds (c : Params) (i : Instr) (S : Lanes) : Lanes :=
  (List.range (roundCount c i)).foldl (fun T r => roundLanes c i r T) S

/-- The lanes a command loads (R182). -/
def loadedLanes (c : Params) (i : Instr) (buf : Memory) (n : Nat) : Lanes :=
  match i with
  | .hspread => loadFixed buf n
  | .hrescue => rescuePrologue c (loadFixed buf n)
  | .hfeistel => loadFixed buf n
  | .sdigest => spongeLoad c buf n
  | .invmds => loadElements buf n

/-- How many lanes a command uses (R21). -/
def laneWidth (c : Params) : Instr → Nat
  | .hspread => 6
  | .hrescue => 6
  | .hfeistel => 6
  | .sdigest => c.W
  | .invmds => c.W

/-- How many elements a command's result has (R89). -/
def resultCount (c : Params) : Instr → Nat
  | .hspread => 2
  | .hrescue => 2
  | .hfeistel => 2
  | .sdigest => c.D
  | .invmds => c.W

/-! Reads (R52). -/

/-- BUSY, DONE, ERR, LASTOP and ERRCODE at their places in STATUS (R26). -/
def statusValue (s : State) : Nat :=
  (if s.busy then 1 else 0) + (if s.done then 2 else 0) + (if s.err then 4 else 0) + 16 * s.lastop.toNat
    + 256 * s.errcode.toNat

/-- The little-endian number of four bytes of a buffer from byte `k` on (R56). -/
def bufferWordValue (buf : Memory) (k : Nat) : Nat := ∑ j ∈ Finset.range 4, (byteAt buf (k + j)).toNat * 2 ^ (8 * j)

/-- The number a read of an aligned offset gives, by R52's table; none where the table has a bus error. While BUSY = 1,
ROUND, OUTBUF and STATE give the next `draw()`. -/
def readValue (c : Params) (s : State) (off : Nat) : Option Nat :=
  if off = 0x004 then some (statusValue s)
  else if off = 0x008 then some s.inlen.toNat
  else if off = 0x010 then some (c.W + 2 ^ 8 * c.R + 2 ^ 16 * c.D + 2 ^ 24 * 16)
  else if off = 0x014 then some (c.N + 2 ^ 16 * c.C)
  else if off = 0x018 then some (c.nRescue + 2 ^ 16 * c.nFeistel)
  else if off = 0x01C then some (91 + 2 ^ 16 * 4 + 2 ^ 24 * 87)
  else if 0x100 ≤ off ∧ off < 0x200 then some (bufferWordValue s.inbuf (off - 0x100))
  else if off = 0x00C ∨ 0x200 ≤ off then
    if s.busy then some (Config.draw s.draws).toNat
    else if off = 0x00C then some s.round.toNat
    else if off < 0x300 then some (bufferWordValue s.outbuf (off - 0x200))
    else some ((laneAt s.lanes ((off - 0x300) / 16)).toNat / 2 ^ (8 * ((off - 0x300) % 16)) % 2 ^ 32)
  else none

/-! Invariants. -/

/-- Every lane is a field element (R22). -/
def LanesCanonical (c : Params) (s : State) : Prop := ∀ i < 16, (laneAt s.lanes i).toNat < c.P

/-- R26's legal combinations: BUSY = 1 implies DONE = 0; ERR = 0 exactly when ERRCODE = 0; the codes are 0 to 4 (R200, I4). -/
def StatusLegal (s : State) : Prop :=
  (s.busy = true → s.done = false) ∧ (s.err = false ↔ s.errcode = 0#4) ∧ s.errcode.toNat ≤ 4

/-- INBUF and OUTBUF are in canonical form (DESIGN CHOICE, log 14). -/
def BuffersCanonical (s : State) : Prop := s.inbuf.wf = true ∧ s.outbuf.wf = true

/-- The sequencing state (R23, R24): a running command has an opcode and a round in `0 .. K`, a completed one has ROUND = K. -/
def Sequenced (c : Params) (s : State) : Prop :=
  (s.busy = true → ∃ i, opInstr s.lastop = some i ∧ s.round.toNat ≤ roundCount c i) ∧
  (s.done = true → ∃ i, opInstr s.lastop = some i ∧ s.round.toNat = roundCount c i) ∧
  s.round.toNat ≤ 65535

/-- Lanes the last accepted command does not use are 0; before any command all are (R21, R37). -/
def UnusedLanesZero (c : Params) (s : State) : Prop :=
  ∀ l < 16, (∀ i, opInstr s.lastop = some i → laneWidth c i ≤ l) → laneAt s.lanes l = 0#128

/-- While the reset input is asserted every piece of FMPP's state has its reset value (R230). -/
def HeldAtReset (s : State) : Prop := s.resetIn = true → s = s.initialised true

/-- FMPP's own state but for ERR and ERRCODE, the two fields a rejection writes (R201). -/
def State.undisturbed (s : State) : Fmpp := { s.toFmpp with err := false, errcode := 0#4 }

/-- The next step is a round step of command `i`: no event comes first, reset is not asserted, and R186 enables it. -/
structure RoundEnabled (c : Params) (i : Instr) (s : State) : Prop where
  quiet : s.pending = []
  released : s.resetIn = false
  busy : s.busy = true
  mode : s.lastop = i.op
  round : s.round.toNat < roundCount c i

/-- The next step is the completion step of command `i` (R188). -/
structure CompletionEnabled (c : Params) (i : Instr) (s : State) : Prop where
  quiet : s.pending = []
  released : s.resetIn = false
  busy : s.busy = true
  mode : s.lastop = i.op
  round : s.round.toNat = roundCount c i

/-- The next event is a host access of the window, and reset is not asserted. -/
structure NextAccess (a : Access) (rest : List Event) (s : State) : Prop where
  next : s.pending = .access a :: rest
  released : s.resetIn = false
  inside : a.off < 0x400

/-- The host's next move is an edge of the reset input. -/
def State.atResetEdge (s : State) : Prop := s.move.isReset = true

/-- The move is a 4-byte write of `v` at offset `off` of the window, by offset or by platform address (R50, R53). -/
def HostWrites (c : Params) (off : Nat) (v : Word) : Event → Prop
  | .access a => a = { off := off, bytes := 4, op := .write v }
  | .platform addr bytes op => addr = c.base + off ∧ bytes = 4 ∧ op = .write v
  | .wait => False
  | .assertReset => False
  | .releaseReset => False

/-- Two parameter sets that agree on the modulus, the widths and counts the engine uses, and every ROM entry that R6
declares and R60 lists; beyond those entries their tables are any. -/
structure RomsAgree (c c' : Params) : Prop where
  P : c.P = c'.P
  W : c.W = c'.W
  C : c.C = c'.C
  nRescue : c.nRescue = c'.nRescue
  nFeistel : c.nFeistel = c'.nFeistel
  N : c.N = c'.N
  tS : ∀ k < 546, romAt c.tS k = romAt c'.tS k
  tR : ∀ k < 6 * (2 * c.nRescue + 1), romAt c.tR k = romAt c'.tR k
  rcF : ∀ r < c.nFeistel, romAt c.rcF r = romAt c'.rcF r
  arkW : ∀ row < 2 * c.W, ∀ col < c.C, matAt c.arkW row col = matAt c'.arkW row col
  mdsS : ∀ i < 6, ∀ j < 6, matAt c.mdsS i j = matAt c'.mdsS i j
  mdsR : ∀ i < 6, ∀ j < 6, matAt c.mdsR i j = matAt c'.mdsR i j
  mdsW : ∀ i < c.W, ∀ j < c.W, matAt c.mdsW i j = matAt c'.mdsW i j
  mdsWInv : ∀ i < c.W, ∀ j < c.W, matAt c.mdsWInv i j = matAt c'.mdsWInv i j

/-- A matrix has the entries `[i][j]`, `i < rows`, `j < cols`. -/
def HasEntries (m : List (List Lane)) (rows cols : Nat) : Prop :=
  ∀ i < rows, ∀ j < cols, ∃ r ∈ m[i]?, j < r.length

/-- The bytes a command's input is made of agree: bytes below INLEN, or 16 bytes for each element below INLEN (R87, R88). -/
def InputsAgree (i : Instr) (s s' : State) : Prop :=
  s.inlen = s'.inlen ∧
  match i with
  | .hspread => ∀ k < s.inlen.toNat, byteAt s.inbuf k = byteAt s'.inbuf k
  | .hrescue => ∀ k < s.inlen.toNat, byteAt s.inbuf k = byteAt s'.inbuf k
  | .hfeistel => ∀ k < s.inlen.toNat, byteAt s.inbuf k = byteAt s'.inbuf k
  | .sdigest => ∀ k < 16 * s.inlen.toNat, byteAt s.inbuf k = byteAt s'.inbuf k
  | .invmds => ∀ k < 16 * s.inlen.toNat, byteAt s.inbuf k = byteAt s'.inbuf k

/-- What R55 answers with a bus error, inside the window: a wrong width or alignment (R54), a read of CMD or of a reserved
offset, a write to anything but CMD, INLEN and INBUF. -/
def BusErrorAccess (a : Access) : Prop :=
  a.bytes ≠ 4 ∨ a.off % 4 ≠ 0 ∨
  match a.op with
  | .read => a.off = 0x000 ∨ (0x020 ≤ a.off ∧ a.off < 0x100)
  | .write _ => (0x004 ≤ a.off ∧ a.off ≠ 0x008 ∧ a.off < 0x100) ∨ 0x200 ≤ a.off

end Sys2Proof.Machine
end

