-- ==== Sys2Proof/Certificates/Slice0/Obligations.lean ====
section
/-! DEFINITION. The statements for the provers. Each docstring names the rule of spec/ a statement formalises. Statements
about `exec` and `step` are about the instance `Config.params`, of which only R6's constraints are known; statements about
`stepWith c` hold for every parameter set that meets R6's constraints (the lower bound on `P` left out). -/

open Sys2Proof Sys2Proof.Machine

/-! ## Reset -/

/-- R232 (and the values of R37): after reset the block is idle, with every register and buffer byte 0. -/
def Obligations.ResetLeavesTheBlockIdle : Prop :=
  State.reset.busy = false ∧ State.reset.done = false ∧ State.reset.err = false ∧ State.reset.lastop = 0#4 ∧
  State.reset.errcode = 0#4 ∧ State.reset.round = 0#32 ∧ State.reset.inlen = 0#32 ∧
  (∀ l, laneAt State.reset.lanes l = 0#128) ∧
  (∀ k, byteAt State.reset.inbuf k = 0#8) ∧ ∀ k, byteAt State.reset.outbuf k = 0#8

/-- The invariants stated below hold at reset. -/
def Obligations.ResetMeetsEveryInvariant : Prop :=
  LanesCanonical Config.params State.reset ∧ StatusLegal State.reset ∧ BuffersCanonical State.reset ∧
  Sequenced Config.params State.reset ∧ UnusedLanesZero Config.params State.reset ∧ HeldAtReset State.reset

/-- R230: an edge of the reset input, whatever the block was doing, puts every piece of its state at its reset value; the
model's own fields stay. That a release which finds the input not asserted does so too is the model's (DESIGN CHOICE, log 18). -/
def Obligations.ResetInputInitialisesTheBlock : Prop :=
  ∀ (s : State) (rest : List Event) (level : Bool),
    s.pending = (if level then Event.assertReset else Event.releaseReset) :: rest →
      ∃ t, step s = .next t ∧ t.toFmpp = { State.reset.toFmpp with resetIn := level } ∧
        t.pending = rest ∧ t.replies = s.replies ∧ t.draws = s.draws

/-- R230: while the reset input is asserted, no step moves the block off its reset values. -/
def Obligations.AssertedResetHoldsTheBlock : Prop :=
  ∀ s t : State, HeldAtReset s → step s = .next t → HeldAtReset t

/-- R231, R240, I9: an access of the window while reset is asserted has no defined effect; the model refuses it by name. -/
def Obligations.AccessDuringResetIsRefused : Prop :=
  ∀ (s : State) (a : Access) (rest : List Event), s.pending = .access a :: rest → s.resetIn = true → a.off < 0x400 →
    step s = .refused .accessDuringReset

/-! ## Encoding -/

/-- R84, R92: words written out from the opcode map and from R92's worked encodings. -/
def Obligations.WrittenOutWordsDecode : Prop :=
  decode 0x00000001#32 = .ok .hspread ∧ decode 0x00000002#32 = .ok .hrescue ∧ decode 0x00000003#32 = .ok .hfeistel ∧
  decode 0x00000004#32 = .ok .sdigest ∧ decode 0x00000005#32 = .ok .invmds ∧
  decode 0x00000000#32 = .error .reservedOp ∧ decode 0x00000006#32 = .error .reservedOp ∧
  decode 0x0000000F#32 = .error .reservedOp ∧ decode 0x00000013#32 = .error .reservedBits ∧
  decode 0x80000001#32 = .error .reservedBits

/-- R86, on every 32-bit word: a word decodes to a command exactly when it is that command's word, and is illegal exactly
when bits 31:4 are not all 0 or bits 3:0 are 0 or above 5. -/
def Obligations.DecodeAcceptsExactlyTheFiveWords : Prop :=
  ∀ v : Word,
    (∀ i : Instr, decode v = .ok i ↔ v = encode i) ∧
    ((∃ e, decode v = .error e) ↔ v.toNat / 16 ≠ 0 ∨ v.toNat % 16 = 0 ∨ 5 < v.toNat % 16)

/-- R56, R80: bytes decode to a command exactly when they are the four little-endian bytes of its word. -/
def Obligations.DecodedBytesAreTheCommandsBytes : Prop :=
  ∀ (bs : List Byte) (i : Instr), decodeBytes bs = .ok i ↔ bs = encodeBytes i

/-! ## A write to CMD -/

/-- R53, R180: when the host's next access writes a word that decodes to command `i`, the step is `exec i`, on the state with
the event taken and the write answered. -/
def Obligations.StepRunsTheDecodedCommand : Prop :=
  ∀ (s : State) (v : Word) (rest : List Event) (i : Instr),
    NextAccess { off := 0x000, bytes := 4, op := .write v } rest s → decode v = .ok i →
      step s = exec i { s with pending := rest, replies := .done :: s.replies }

/-- R85: a word with RSV not 0, or OP 0x0 or 0x6 to 0xF, is illegal: it is rejected, with BUSY while a command runs, else
with BAD_COMMAND. Every other word is the word of one of the five commands. That the rejected write is answered `done` is the
model's (DEDUCED, log 5). -/
def Obligations.IllegalWordIsRejected : Prop :=
  ∀ v : Word,
    ((v.toNat / 16 ≠ 0 ∨ v.toNat % 16 = 0 ∨ 6 ≤ v.toNat % 16) →
      ∀ (s : State) (rest : List Event), NextAccess { off := 0x000, bytes := 4, op := .write v } rest s →
        step s = .next (rejectedFrame (if s.busy then 1#4 else 2#4)
          { s with pending := rest, replies := .done :: s.replies })) ∧
    (¬ (v.toNat / 16 ≠ 0 ∨ v.toNat % 16 = 0 ∨ 6 ≤ v.toNat % 16) → ∃ i : Instr, v = encode i ∧ decode v = .ok i)

/-- R181, R201, R203, for every command: the first error that applies, in the order BUSY, INPUT_TOO_LONG, NONCANONICAL, is
recorded, and nothing but ERR and ERRCODE changes. -/
def Obligations.CommandIsRejectedWithItsFirstError : Prop :=
  ∀ (i : Instr) (s : State),
    (s.busy = true → exec i s = .next (rejectedFrame 1#4 s)) ∧
    (s.busy = false → limitOf Config.params i < s.inlen.toNat → exec i s = .next (rejectedFrame 3#4 s)) ∧
    (s.busy = false → s.inlen.toNat ≤ limitOf Config.params i → ¬ InputCanonical Config.params i s →
      exec i s = .next (rejectedFrame 4#4 s))

/-- R140, R182: HSPREAD is accepted exactly with lanes 0 to 5 as R87's loop adds them up and every other lane 0; STATUS and
ROUND as R182 says; all else unchanged. -/
def Obligations.HspreadAcceptedLoadsItsInput : Prop :=
  ∀ s : State, Acceptable Config.params .hspread s →
    ∃ S : Lanes, exec .hspread s = .next (acceptedFrame .hspread s S) ∧
      ∀ l < 16, (laneAt S l).toNat = if l < 6 then loopLane s.inbuf l s.inlen.toNat else 0

/-- R143, R144, R182: HRESCUE is accepted with its input loaded and the first six constants of T_R added. -/
def Obligations.HrescueAcceptedLoadsItsInputAndAddsConstants : Prop :=
  ∀ s : State, Acceptable Config.params .hrescue s →
    ∃ S : Lanes, exec .hrescue s = .next (acceptedFrame .hrescue s S) ∧
      ∀ l < 16, (laneAt S l).toNat =
        if l < 6 then (loopLane s.inbuf l s.inlen.toNat + (romAt Config.params.tR l).toNat) % Config.params.P else 0

/-- R147, R182: HFEISTEL is accepted with its input loaded. -/
def Obligations.HfeistelAcceptedLoadsItsInput : Prop :=
  ∀ s : State, Acceptable Config.params .hfeistel s →
    ∃ S : Lanes, exec .hfeistel s = .next (acceptedFrame .hfeistel s S) ∧
      ∀ l < 16, (laneAt S l).toNat = if l < 6 then loopLane s.inbuf l s.inlen.toNat else 0

/-- R161, R162, R182: SDIGEST is accepted with element `i` in lane `W-1-i` and every other lane 0. -/
def Obligations.SdigestAcceptedLoadsItsInputReversed : Prop :=
  ∀ s : State, Acceptable Config.params .sdigest s →
    ∃ S : Lanes, exec .sdigest s = .next (acceptedFrame .sdigest s S) ∧
      ∀ l < 16, (laneAt S l).toNat =
        if l < Config.params.W ∧ Config.params.W - 1 - l < s.inlen.toNat
        then elementValue s.inbuf (Config.params.W - 1 - l) else 0

/-- R165, R182: INVMDS is accepted with element `i` in lane `i` and every other lane 0. -/
def Obligations.InvmdsAcceptedLoadsItsInput : Prop :=
  ∀ s : State, Acceptable Config.params .invmds s →
    ∃ S : Lanes, exec .invmds s = .next (acceptedFrame .invmds s S) ∧
      ∀ l < 16, (laneAt S l).toNat = if l < s.inlen.toNat then elementValue s.inbuf l else 0

/-- R58: input byte `k` becomes byte `k mod 16` of lane `k div 16`; bytes at or above the length leave 0. -/
def Obligations.LoadFixedLaysTheBytesOverTheLanes : Prop :=
  ∀ (buf : Memory) (n k : Nat), k < 96 →
    laneByteValue (laneAt (loadFixed buf n) (k / 16)) (k % 16) = if k < n then (byteAt buf k).toNat else 0

/-! ## Engine steps -/

/-- R141: one HSPREAD engine step, over the field, with its whole frame. -/
def Obligations.SpreadRoundFollowsItsRule : Prop :=
  ∀ c : Params, c.WellFormed → ∀ s : State, RoundEnabled c .hspread s →
    ∃ S : Lanes, stepWith c s = .next { s with lanes := S, round := s.round + 1#32 } ∧
      HoldsBelow c.P 6 (fieldSpread c s.round.toNat (fieldLane c.P s.lanes)) s.lanes S

/-- R145: one HRESCUE engine step, over the field, with its whole frame. -/
def Obligations.RescueRoundFollowsItsRule : Prop :=
  ∀ c : Params, c.WellFormed → ∀ s : State, RoundEnabled c .hrescue s →
    ∃ S : Lanes, stepWith c s = .next { s with lanes := S, round := s.round + 1#32 } ∧
      HoldsBelow c.P 6 (fieldRescue c s.round.toNat (fieldLane c.P s.lanes)) s.lanes S

/-- R148, R130: one HFEISTEL engine step, over the field, with its whole frame. The lanes are canonical (R22): lane 0 moves
to lane 5 as it is. -/
def Obligations.FeistelRoundFollowsItsRule : Prop :=
  ∀ c : Params, c.WellFormed → ∀ s : State, LanesCanonical c s → RoundEnabled c .hfeistel s →
    ∃ S : Lanes, stepWith c s = .next { s with lanes := S, round := s.round + 1#32 } ∧
      HoldsBelow c.P 6 (fieldFeistel c s.round.toNat (fieldLane c.P s.lanes)) s.lanes S

/-- R163: one SDIGEST engine step, over the field, with its whole frame. -/
def Obligations.SpongeRoundFollowsItsRule : Prop :=
  ∀ c : Params, c.WellFormed → ∀ s : State, RoundEnabled c .sdigest s →
    ∃ S : Lanes, stepWith c s = .next { s with lanes := S, round := s.round + 1#32 } ∧
      HoldsBelow c.P c.W (fieldSponge c s.round.toNat (fieldLane c.P s.lanes)) s.lanes S

/-- R126, R186: INVMDS's single engine step, over the field, with its whole frame. -/
def Obligations.InvmdsRoundFollowsItsRule : Prop :=
  ∀ c : Params, c.WellFormed → ∀ s : State, RoundEnabled c .invmds s →
    ∃ S : Lanes, stepWith c s = .next { s with lanes := S, round := 1#32 } ∧
      HoldsBelow c.P c.W (fieldMds c.mdsWInv c.W (fieldLane c.P s.lanes)) s.lanes S

/-- R146, R188: completion of HSPREAD, HRESCUE and HFEISTEL: lanes 0 and 1 to OUTBUF, zeros after them, BUSY 0, DONE 1, all
else unchanged. -/
def Obligations.FixedWidthCompletionWritesTwoLanes : Prop :=
  ∀ c : Params, c.WellFormed → ∀ (i : Instr) (s : State), (i = .hspread ∨ i = .hrescue ∨ i = .hfeistel) →
    CompletionEnabled c i s →
      ∃ m : Memory, stepWith c s = .next { s with busy := false, done := true, outbuf := m } ∧
        m.wf = true ∧ HoldsResult m s.lanes 2

/-- R164: completion of SDIGEST: the `W` lanes reversed back, the first `D` of them to OUTBUF, zeros after them. -/
def Obligations.SdigestCompletionReversesAndWritesTheDigest : Prop :=
  ∀ c : Params, c.WellFormed → ∀ s : State, CompletionEnabled c .sdigest s →
    ∃ (S : Lanes) (m : Memory),
      stepWith c s = .next { s with busy := false, done := true, lanes := S, outbuf := m } ∧
      (∀ l < c.W, laneAt S l = laneAt s.lanes (c.W - 1 - l)) ∧ (∀ l, c.W ≤ l → laneAt S l = laneAt s.lanes l) ∧
      m.wf = true ∧ HoldsResult m S c.D

/-- R166: completion of INVMDS: all `W` lanes to OUTBUF, zeros after them, the lanes kept. -/
def Obligations.InvmdsCompletionWritesAllLanes : Prop :=
  ∀ c : Params, c.WellFormed → ∀ s : State, CompletionEnabled c .invmds s →
    ∃ m : Memory, stepWith c s = .next { s with busy := false, done := true, outbuf := m } ∧
      m.wf = true ∧ HoldsResult m s.lanes c.W

/-! ## Whole commands -/

/-- R140, R143, R147, R161, R165 as one statement: an acceptable command, left alone, is accepted and after exactly `K + 1`
engine steps has run its pseudocode: DONE with all `K` rounds applied in order to the loaded lanes, ROUND = `K`, the result
in OUTBUF, INLEN and INBUF unchanged. -/
def Obligations.AcceptedCommandRunsItsPseudocode : Prop :=
  ∀ (i : Instr) (s : State), Acceptable Config.params i s → s.pending = [] → s.resetIn = false →
    ∃ (t : State) (m : Memory), exec i s = .next t ∧
      Host.Core.run core (roundCount Config.params i + 1) t = .next
        { acceptedFrame i s (finalLanes Config.params i
            (allRounds Config.params i (loadedLanes Config.params i s.inbuf s.inlen.toNat))) with
          busy := false, done := true, round := BitVec.ofNat 32 (roundCount Config.params i), outbuf := m } ∧
      m.wf = true ∧
      HoldsResult m (finalLanes Config.params i
        (allRounds Config.params i (loadedLanes Config.params i s.inbuf s.inlen.toNat)))
        (resultCount Config.params i)

/-- R187, R23: from acceptance until its completion step the command stays BUSY, and after `k` engine steps ROUND is `k`. -/
def Obligations.CommandStaysBusyUntilItsLastStep : Prop :=
  ∀ (i : Instr) (s : State) (k : Nat), Acceptable Config.params i s → s.pending = [] → s.resetIn = false →
    k ≤ roundCount Config.params i →
      ∃ t u : State, exec i s = .next t ∧ Host.Core.run core k t = .next u ∧
        u.busy = true ∧ u.done = false ∧ u.round.toNat = k ∧ u.lastop = i.op ∧ u.outbuf = s.outbuf

/-! ## The field -/

/-- R103. -/
def Obligations.FaddIsExactModularAddition : Prop :=
  ∀ c : Params, c.WellFormed →
    (∀ a b : Lane, a.toNat < c.P → b.toNat < c.P →
      (fadd c a b).toNat = (a.toNat + b.toNat) % c.P ∧
      (fadd c a b).toNat = (if c.P ≤ a.toNat + b.toNat then a.toNat + b.toNat - c.P else a.toNat + b.toNat)) ∧
    (∀ a : Lane, a.toNat < c.P → fadd c a 0#128 = a) ∧
    ∀ m : Lane, m.toNat = c.P - 1 →
      fadd c m 1#128 = 0#128 ∧ (fadd c m m).toNat = c.P - 2 ∧ fadd c m 2#128 = 1#128

/-- R104. -/
def Obligations.FmulIsExactModularMultiplication : Prop :=
  ∀ c : Params, c.WellFormed →
    (∀ a b : Lane, a.toNat < c.P → b.toNat < c.P → (fmul c a b).toNat = a.toNat * b.toNat % c.P) ∧
    (∀ a : Lane, a.toNat < c.P → fmul c a 0#128 = 0#128 ∧ fmul c a 1#128 = a) ∧
    ∀ m : Lane, m.toNat = c.P - 1 → fmul c m m = 1#128 ∧ (fmul c m 2#128).toNat = c.P - 2

/-- R105: the exact power reduced once; the same from any association of `fmul`s; and its corner cases. -/
def Obligations.FexpIsTheExactPower : Prop :=
  ∀ c : Params, c.WellFormed →
    (∀ (b : Lane) (e : Nat), b.toNat < c.P → 1 ≤ e → (fexp c b e).toNat = b.toNat ^ e % c.P) ∧
    (∀ b : Lane, b.toNat < c.P → fexp c b 1 = b) ∧
    (∀ (b : Lane) (d e : Nat), b.toNat < c.P → 1 ≤ d → 1 ≤ e → fexp c b (d + e) = fmul c (fexp c b d) (fexp c b e)) ∧
    (∀ e : Nat, 1 ≤ e → fexp c 0#128 e = 0#128 ∧ fexp c 1#128 e = 1#128) ∧
    (8 < c.P → fexp c 2#128 3 = 8#128)

/-- R106. -/
def Obligations.SboxIsTheCube : Prop :=
  ∀ c : Params, c.WellFormed →
    (∀ x : Lane, x.toNat < c.P → sbox c x = fmul c (fmul c x x) x ∧ (sbox c x).toNat = x.toNat ^ 3 % c.P) ∧
    sbox c 0#128 = 0#128 ∧ sbox c 1#128 = 1#128 ∧ (∀ m : Lane, m.toNat = c.P - 1 → sbox c m = m) ∧
    (8 < c.P → sbox c 2#128 = 8#128) ∧ (125 < c.P → sbox c 5#128 = 125#128)

/-- R108: ALPHA_INV, and that no other exponent in range has its property. -/
def Obligations.AlphaInvIsTheInverseOfThree : Prop :=
  ∀ c : Params, c.WellFormed → ∀ e : Nat,
    (1 ≤ e ∧ e < c.P - 1 ∧ 3 * e % (c.P - 1) = 1) ↔ e = alphaInv c.P

/-- R107, R109: the inverse S-box is the power by ALPHA_INV, with its corner cases; the two S-boxes undo each other on the
field. -/
def Obligations.SboxAndIsboxAreInverse : Prop :=
  ∀ c : Params, c.WellFormed →
    (∀ x : Lane, x.toNat < c.P → isbox c (sbox c x) = x ∧ sbox c (isbox c x) = x ∧
      (isbox c x).toNat = x.toNat ^ alphaInv c.P % c.P) ∧
    isbox c 0#128 = 0#128 ∧ isbox c 1#128 = 1#128 ∧ (∀ m : Lane, m.toNat = c.P - 1 → isbox c m = m) ∧
    (8 < c.P → isbox c 8#128 = 2#128)

/-- R110: the order in which field elements are summed does not change the sum, and multiplication distributes over it. -/
def Obligations.SummationOrderIsIrrelevant : Prop :=
  ∀ c : Params, c.WellFormed → ∀ (xs ys : List Lane) (m : Lane), xs.Perm ys →
    (∀ x ∈ xs, x.toNat < c.P) →
      xs.foldl (fadd c) 0#128 = ys.foldl (fadd c) 0#128 ∧
      fmul c m (xs.foldl (fadd c) 0#128) = (ys.map (fmul c m)).foldl (fadd c) 0#128

/-! ## Layers -/

/-- R127: on canonical lanes, the matrix product and the inverse matrix product undo each other, in both orders. -/
def Obligations.MdsInverseUndoesMds : Prop :=
  ∀ c : Params, c.WellFormed → ∀ S : Lanes, (∀ i < c.W, (laneAt S i).toNat < c.P) →
    mds c c.mdsW c.W (mdsInv c S) = S ∧ mdsInv c (mds c c.mdsW c.W S) = S

/-- R129: reversal moves lane `w-1-i` to lane `i`, leaves the lanes above, and twice is the identity. -/
def Obligations.ReversalTwiceIsTheIdentity : Prop :=
  ∀ (w : Nat) (S : Lanes), w ≤ 16 →
    (∀ i < w, laneAt (reverseLanes w S) i = laneAt S (w - 1 - i)) ∧
    (∀ i, w ≤ i → laneAt (reverseLanes w S) i = laneAt S i) ∧
    reverseLanes w (reverseLanes w S) = S

/-- R125: the inverse S-box layer after the forward one restores the lanes. -/
def Obligations.InverseSboxLayerUndoesTheForwardOne : Prop :=
  ∀ c : Params, c.WellFormed → ∀ (w : Nat) (S : Lanes), w ≤ 16 → (∀ i < w, (laneAt S i).toNat < c.P) →
    isboxAll c w (sboxAll c w S) = S

/-- R60: the engine reads all eight ROMs only at the entries R60 lists, and those are inside the declared sizes: parameters
that meet R6 have them, and what a command loads and what its rounds compute is the same for any two parameter sets that
agree on them, whatever their tables hold beyond. -/
def Obligations.RomAddressesAreInBounds : Prop :=
  (∀ c : Params, c.WellFormed →
    546 ≤ c.tS.length ∧ 6 * (2 * c.nRescue + 1) ≤ c.tR.length ∧ c.nFeistel ≤ c.rcF.length ∧
    HasEntries c.arkW (2 * c.W) c.C ∧ HasEntries c.mdsS 6 6 ∧ HasEntries c.mdsR 6 6 ∧
    HasEntries c.mdsW c.W c.W ∧ HasEntries c.mdsWInv c.W c.W) ∧
  ∀ c c' : Params, 1 ≤ c.C → RomsAgree c c' → ∀ i : Instr,
    (∀ (r : Nat) (S : Lanes), r < roundCount c i → roundLanes c i r S = roundLanes c' i r S) ∧
    (∀ (buf : Memory) (n : Nat), loadedLanes c i buf n = loadedLanes c' i buf n) ∧
    ∀ S : Lanes, finalLanes c i S = finalLanes c' i S

/-! ## The host window -/

/-- R52, on every aligned offset of the window: the value the table gives, `draw()` where it says so, a bus error elsewhere;
no state of the block changes. -/
def Obligations.ReadsFollowTheRegisterMap : Prop :=
  ∀ (s : State) (off : Nat) (rest : List Event), off % 4 = 0 →
    NextAccess { off := off, bytes := 4, op := .read } rest s →
      match readValue Config.params s off with
      | some n => ∃ w : Word, w.toNat = n ∧ step s = .next
          { s with
            pending := rest
            replies := .data w :: s.replies
            draws := if s.busy = true ∧ (off = 0x00C ∨ 0x200 ≤ off) then s.draws + 1 else s.draws }
      | none => step s = .next { s with pending := rest, replies := .busError :: s.replies }

/-- R53, on every aligned offset of the window: CMD presents the word; INLEN and INBUF take it, or are rejected with BUSY;
elsewhere a bus error. -/
def Obligations.WritesFollowTheRegisterMap : Prop :=
  ∀ (s : State) (off : Nat) (v : Word) (rest : List Event), off % 4 = 0 → BuffersCanonical s →
    NextAccess { off := off, bytes := 4, op := .write v } rest s →
      let s' : State := { s with pending := rest, replies := .done :: s.replies }
      if off = 0x000 then
        step s = match decode v with
          | .ok i => exec i s'
          | .error _ => .next (rejectedFrame (if s.busy then 1#4 else 2#4) s')
      else if off = 0x008 then
        step s = .next (if s.busy then rejectedFrame 1#4 s' else { s' with inlen := v })
      else if 0x100 ≤ off ∧ off < 0x200 then
        if s.busy then step s = .next (rejectedFrame 1#4 s')
        else ∃ m : Memory, step s = .next { s' with inbuf := m } ∧ m.wf = true ∧
          ∀ k, (byteAt m k).toNat =
            if off - 0x100 ≤ k ∧ k < off - 0x100 + 4 then v.toNat / 2 ^ (8 * (k - (off - 0x100))) % 256
            else (byteAt s.inbuf k).toNat
      else step s = .next { s with pending := rest, replies := .busError :: s.replies }

/-- R55, R207: a bus error changes no state of the block, not even STATUS.ERR, and returns no data. -/
def Obligations.BusErrorsChangeNothing : Prop :=
  ∀ (s : State) (a : Access) (rest : List Event), NextAccess a rest s → BusErrorAccess a →
    step s = .next { s with pending := rest, replies := .busError :: s.replies }

/-- R56, R62: an idle host reads back the word it wrote to INBUF. -/
def Obligations.InbufReadsBackWhatWasWritten : Prop :=
  ∀ (s : State) (off : Nat) (v : Word) (rest : List Event), s.busy = false → s.resetIn = false → BuffersCanonical s →
    off % 4 = 0 → 0x100 ≤ off → off < 0x200 →
    s.pending = .access { off := off, bytes := 4, op := .write v } ::
      .access { off := off, bytes := 4, op := .read } :: rest →
      ∃ t : State, Host.Core.run core 2 s = .next t ∧ t.pending = rest ∧ t.replies = .data v :: .done :: s.replies

/-- R50, R51: an access at a platform address acts as the access at that window offset, and outside the window leaves the
block alone (the model's reading of R51, DEDUCED, log 7). -/
def Obligations.PlatformAddressesReachTheWindow : Prop :=
  ∀ (s : State) (addr bytes : Nat) (op : AccessOp) (rest : List Event),
    s.pending = .platform addr bytes op :: rest →
      (∀ off, addr = Config.params.base + off → off < 0x400 →
        step s = step { s with pending := .access { off := off, bytes := bytes, op := op } :: rest }) ∧
      (¬ (Config.params.base ≤ addr ∧ addr < Config.params.base + 0x400) → step s = .next { s with pending := rest })

/-! ## Invariants every step keeps -/

/-- R22. -/
def Obligations.LanesStayCanonical : Prop :=
  ∀ s t : State, LanesCanonical Config.params s → step s = .next t → LanesCanonical Config.params t

/-- R26. -/
def Obligations.StatusStaysLegal : Prop :=
  ∀ s t : State, StatusLegal s → step s = .next t → StatusLegal t

/-- The buffers keep their canonical form (DESIGN CHOICE, log 14). -/
def Obligations.BuffersStayCanonical : Prop :=
  ∀ s t : State, BuffersCanonical s → step s = .next t → BuffersCanonical t

/-- R23, R187, R204: the sequencing state stays legal, and a machine in a legal one never stops with a fault. -/
def Obligations.SequencingStaysLegalAndNeverFaults : Prop :=
  ∀ s : State, Sequenced Config.params s →
    (∀ f, step s ≠ .fault f) ∧ ∀ t, step s = .next t → Sequenced Config.params t

/-- R21. -/
def Obligations.UnusedLanesStayZero : Prop :=
  ∀ s t : State, UnusedLanesZero Config.params s → step s = .next t → UnusedLanesZero Config.params t

/-! ## Whole-machine rules -/

/-- R201, R236: while a command runs, no host access changes anything but ERR and ERRCODE, and it stays running. -/
def Obligations.AccessesDoNotDisturbARunningCommand : Prop :=
  ∀ (s t : State) (e : Event) (rest : List Event), s.busy = true → s.pending = e :: rest →
    e.isReset = false → e.isWait = false → step s = .next t →
      t.undisturbed = s.undisturbed ∧ t.busy = true ∧ t.pending = rest

/-- R187, R191: however host accesses are interleaved with the engine's steps of a running command, the block ends as if the
same number of engine steps had been taken alone, ERR and ERRCODE apart. The last event may be the wait on which the command
completes. -/
def Obligations.InterleavingDoesNotChangeTheCommand : Prop :=
  ∀ (s : State) (i : Instr), s.busy = true → s.resetIn = false → opInstr s.lastop = some i →
    (∀ e ∈ s.pending, e.isReset = false) →
    s.round.toNat + (s.pending.dropLast.filter Event.isWait).length ≤ roundCount Config.params i →
      ∃ u v : State, Host.Core.run core s.pending.length s = .next u ∧
        Host.Core.run core (s.pending.filter Event.isWait).length { s with pending := [] } = .next v ∧
        u.undisturbed = v.undisturbed ∧ u.pending = []

/-- R150, R168: the result and the final lanes depend on INLEN, the input bytes below it and the parameters alone. -/
def Obligations.ResultDependsOnlyOnTheInput : Prop :=
  ∀ (i : Instr) (s s' : State), Acceptable Config.params i s → s'.busy = false → InputsAgree i s s' →
    s.pending = [] → s'.pending = [] → s.resetIn = false → s'.resetIn = false →
      ∃ t t' u u' : State, exec i s = .next t ∧ exec i s' = .next t' ∧
        Host.Core.run core (roundCount Config.params i + 1) t = .next u ∧
        Host.Core.run core (roundCount Config.params i + 1) t' = .next u' ∧
        u.done = true ∧ u'.done = true ∧ u.lanes = u'.lanes ∧ u.outbuf = u'.outbuf

/-- R206: ERR is cleared only by the acceptance of a command and by reset. -/
def Obligations.ErrIsClearedOnlyByAcceptanceAndReset : Prop :=
  ∀ s t : State, step s = .next t → s.err = true → t.err = false →
    (s.atResetEdge ∨ s.resetIn = true) ∨
    ∃ i : Instr, Acceptable Config.params i s ∧ t.busy = true ∧ t.lastop = i.op ∧ t.round = 0#32 ∧ t.errcode = 0#4

/-- R28: only a completion step (and reset) writes OUTBUF. -/
def Obligations.OutbufIsWrittenOnlyByCompletionAndReset : Prop :=
  ∀ s t : State, step s = .next t → t.outbuf ≠ s.outbuf →
    (s.atResetEdge ∨ s.resetIn = true) ∨
    ∃ i : Instr, opInstr s.lastop = some i ∧ s.busy = true ∧ s.round.toNat = roundCount Config.params i ∧
      t.busy = false ∧ t.done = true

/-- R27, R29: only a write at 0x008 or at 0x100 to 0x1FC by a host that finds BUSY = 0 (and reset) writes INLEN and INBUF,
each its own, and such a write changes nothing else. -/
def Obligations.InputIsWrittenOnlyByAnIdleHostAndReset : Prop :=
  ∀ s t : State, step s = .next t → (t.inbuf ≠ s.inbuf ∨ t.inlen ≠ s.inlen) →
    (s.atResetEdge ∨ s.resetIn = true) ∨
    (s.busy = false ∧ s.resetIn = false ∧ ∃ (off : Nat) (v : Word), HostWrites Config.params off v s.move ∧
      ((off = 0x008 ∧ t.toFmpp = { s.toFmpp with inlen := v }) ∨
       (0x100 ≤ off ∧ off ≤ 0x1FC ∧ t.toFmpp = { s.toFmpp with inbuf := t.inbuf })))

/-- R20: only acceptance, the two engine steps and reset write the lanes; no host access but an accepted command's write
does. -/
def Obligations.LanesAreWrittenOnlyByTheEngineAndReset : Prop :=
  ∀ s t : State, step s = .next t → t.lanes ≠ s.lanes →
    (s.atResetEdge ∨ s.resetIn = true) ∨
    (s.move = .wait ∧ s.busy = true ∧ ∃ i : Instr, opInstr s.lastop = some i ∧
      ((s.round.toNat < roundCount Config.params i ∧ t.lanes = roundLanes Config.params i s.round.toNat s.lanes ∧
          t.busy = true) ∨
       (s.round.toNat = roundCount Config.params i ∧ t.lanes = finalLanes Config.params i s.lanes ∧ t.busy = false))) ∨
    ∃ (i : Instr) (v : Word), HostWrites Config.params 0x000 v s.move ∧ decode v = .ok i ∧ Acceptable Config.params i s ∧
      t.lanes = loadedLanes Config.params i s.inbuf s.inlen.toNat ∧ t.busy = true

/-- R180, R187, R215: in a turn without an access an idle block keeps all its state, whether the turn is a wait event or
nothing is pending. -/
def Obligations.IdleBlockKeepsItsState : Prop :=
  ∀ s : State, s.move = .wait → s.busy = false → s.resetIn = false →
    step s = .next { s with pending := s.pending.tail }

/-- R36: the step relation on FMPP's machine state has the parameters and the host's move as arguments: what a step does to
the block is `fmppStep` of the parameters, the host's next move and the block, so nothing else of the pending events, and no
reply or draw, plays a part; and the step takes that one move. -/
def Obligations.BlockStepsUnderParametersAndTheHostsMove : Prop :=
  ∀ s : State, fmppOutcome (step s) = fmppStep Config.params s.move s.toFmpp ∧
    ∀ t, step s = .next t → t.pending = s.pending.tail
end

