-- ==== Sys2Proof/Laws/Lanes.lean ====
section
/-! SUPPORT. The state register file lane by lane: one lemma per layer, saying what every lane holds after it. -/

namespace Sys2Proof.Machine

theorem laneAt_lanesOf (f : Nat → Lane) (i : Nat) : laneAt (lanesOf f) i = if i < 16 then f i else 0#128 := by
  unfold laneAt lanesOf
  split
  · simp
  · rfl

theorem laneAt_large {S : Lanes} {i : Nat} (h : 16 ≤ i) : laneAt S i = 0#128 := dif_neg (by omega)

/-- Two register files with equal lanes are equal. -/
theorem lanes_ext {S T : Lanes} (h : ∀ i < 16, laneAt S i = laneAt T i) : S = T := by
  apply Vector.ext
  intro i hi
  have := h i hi
  rwa [laneAt, dif_pos hi, laneAt, dif_pos hi] at this

/-- Everything a layer of width `w ≤ 16` does. -/
theorem laneAt_layer {w : Nat} (hw : w ≤ 16) (f : Nat → Lane) (S : Lanes) (i : Nat) :
    laneAt (layer w f S) i = if i < w then f i else laneAt S i := by
  unfold layer
  rw [laneAt_lanesOf]
  by_cases h : i < 16
  · rw [if_pos h]
  · rw [if_neg h, if_neg (by omega), laneAt_large (by omega)]

@[simp] theorem laneAt_reset (i : Nat) : laneAt State.reset.lanes i = 0#128 := by
  unfold laneAt
  split
  · exact Vector.getElem_replicate ..
  · rfl

theorem laneAt_arkFlat (c : Params) (t : List Lane) (s : Nat) (S : Lanes) (i : Nat) :
    laneAt (arkFlat c t s S) i = if i < 6 then fadd c (laneAt S i) (romAt t (6 * s + i)) else laneAt S i :=
  laneAt_layer (by decide) _ S i

theorem laneAt_ark2d {c : Params} (hw : c.W ≤ 16) (off col : Nat) (S : Lanes) (i : Nat) :
    laneAt (ark2d c off col S) i = if i < c.W then fadd c (laneAt S i) (matAt c.arkW (off + i) col) else laneAt S i :=
  laneAt_layer hw _ S i

theorem laneAt_sboxAll (c : Params) {w : Nat} (hw : w ≤ 16) (S : Lanes) (i : Nat) :
    laneAt (sboxAll c w S) i = if i < w then sbox c (laneAt S i) else laneAt S i :=
  laneAt_layer hw _ S i

theorem laneAt_sboxLast (c : Params) (S : Lanes) (i : Nat) :
    laneAt (sboxLast c S) i = if i = 5 then sbox c (laneAt S i) else laneAt S i := by
  unfold sboxLast
  rw [laneAt_layer (by decide)]
  by_cases h : i = 5
  · rw [if_pos (by rw [h]; decide), if_pos h]
  · simp only [if_neg h, ite_self]

theorem laneAt_isboxAll (c : Params) {w : Nat} (hw : w ≤ 16) (S : Lanes) (i : Nat) :
    laneAt (isboxAll c w S) i = if i < w then isbox c (laneAt S i) else laneAt S i :=
  laneAt_layer hw _ S i

theorem laneAt_mds (c : Params) (m : List (List Lane)) {w : Nat} (hw : w ≤ 16) (S : Lanes) (i : Nat) :
    laneAt (mds c m w S) i = if i < w then fsum c (fun j => fmul c (matAt m i j) (laneAt S j)) w else laneAt S i :=
  laneAt_layer hw _ S i

theorem laneAt_reverseLanes {w : Nat} (hw : w ≤ 16) (S : Lanes) (i : Nat) :
    laneAt (reverseLanes w S) i = if i < w then laneAt S (w - 1 - i) else laneAt S i :=
  laneAt_layer hw _ S i

theorem laneAt_feistelStep (c : Params) (r : Nat) (S : Lanes) (i : Nat) :
    laneAt (feistelStep c r S) i =
      if i < 6 then
        if i < 5 then fadd c (laneAt S (i + 1)) (sbox c (fadd c (laneAt S 0) (romAt c.rcF r))) else laneAt S 0
      else laneAt S i :=
  laneAt_layer (by decide) _ S i

/-- A layer is what it computes for the lanes it writes. -/
theorem layer_congr {w : Nat} {f g : Nat → Lane} (h : ∀ i < w, f i = g i) (S : Lanes) : layer w f S = layer w g S :=
  lanes_ext fun i hi => by
    rw [layer, layer, laneAt_lanesOf, laneAt_lanesOf, if_pos hi, if_pos hi]
    split
    · next hw => exact h i hw
    · rfl

end Sys2Proof.Machine
end

