-- ==== Sys2Proof/Laws/Memory.lean ====
section
/-! SUPPORT. Byte buffers: what a write and a fill do to each byte, that both keep the canonical form, and that buffers in
canonical form with equal bytes are equal. -/

namespace Sys2Proof.Machine

@[simp] theorem byteAt_nil (k : Nat) : byteAt [] k = 0#8 := rfl

theorem byteAt_cons (a : Nat) (v : Byte) (m : Memory) (k : Nat) :
    byteAt ((a, v) :: m) k = if a = k then v else byteAt m k := rfl

theorem Memory.wfFrom_cons (lo a : Nat) (v : Byte) (m : Memory) :
    Memory.wfFrom lo ((a, v) :: m) = true ↔ lo ≤ a ∧ a < 256 ∧ v ≠ 0#8 ∧ Memory.wfFrom (a + 1) m = true := by
  simp [Memory.wfFrom, and_assoc]

theorem Memory.wfFrom_mono {lo lo' : Nat} (h : lo ≤ lo') : ∀ {m : Memory}, Memory.wfFrom lo' m = true → Memory.wfFrom lo m = true
  | [], _ => rfl
  | (a, v) :: m, hm => by
    rw [Memory.wfFrom_cons] at hm ⊢
    exact ⟨h.trans hm.1, hm.2⟩

/-- A canonical buffer has nothing below its first byte number. -/
theorem byteAt_of_wfFrom : ∀ {m : Memory} {lo k : Nat}, Memory.wfFrom lo m = true → k < lo → byteAt m k = 0#8
  | [], _, _, _, _ => rfl
  | (a, v) :: m, lo, k, hm, hk => by
    rw [Memory.wfFrom_cons] at hm
    rw [byteAt_cons, if_neg (by omega), byteAt_of_wfFrom hm.2.2.2 (by omega)]

/-- A canonical buffer has nothing at or above 256. -/
theorem byteAt_of_wfFrom_large : ∀ {m : Memory} {lo k : Nat}, Memory.wfFrom lo m = true → 256 ≤ k → byteAt m k = 0#8
  | [], _, _, _, _ => rfl
  | (a, v) :: m, lo, k, hm, hk => by
    rw [Memory.wfFrom_cons] at hm
    rw [byteAt_cons, if_neg (by omega), byteAt_of_wfFrom_large hm.2.2.2 hk]

theorem byteAt_consCell {lo a : Nat} {v : Byte} {m : Memory} (hm : Memory.wfFrom lo m = true) (ha : a < lo) (k : Nat) :
    byteAt (consCell a v m) k = if k = a then v else byteAt m k := by
  unfold consCell
  split
  · next h =>
    split
    · next hk => rw [hk, h, byteAt_of_wfFrom hm ha]
    · rfl
  · rw [byteAt_cons]
    simp only [eq_comm]

theorem wfFrom_consCell {lo a : Nat} {v : Byte} {m : Memory} (hm : Memory.wfFrom (a + 1) m = true) (hlo : lo ≤ a)
    (ha : a < 256) : Memory.wfFrom lo (consCell a v m) = true := by
  unfold consCell
  split
  · exact Memory.wfFrom_mono (by omega) hm
  · next h => exact (Memory.wfFrom_cons ..).2 ⟨hlo, ha, h, hm⟩

theorem byteAt_setByte : ∀ {m : Memory} {lo : Nat}, Memory.wfFrom lo m = true → ∀ (a : Nat) (v : Byte) (k : Nat),
    byteAt (setByte m a v) k = if k = a then v else byteAt m k
  | [], _, _, a, v, k => by
    unfold setByte
    exact byteAt_consCell (lo := a + 1) rfl (Nat.lt_succ_self a) k
  | (b, w) :: m, lo, hm, a, v, k => by
    have hm' := (Memory.wfFrom_cons ..).1 hm
    unfold setByte
    split
    · next h =>
      exact byteAt_consCell (lo := b) ((Memory.wfFrom_cons ..).2 ⟨le_refl b, hm'.2.1, hm'.2.2⟩) h k
    · split
      · next h =>
        rw [byteAt_consCell hm'.2.2.2 (by omega), byteAt_cons]
        split
        · rfl
        · rw [if_neg (by omega)]
      · rw [byteAt_cons, byteAt_cons, byteAt_setByte hm'.2.2.2 a v k]
        split
        · rw [if_neg (by omega)]
        · rfl

theorem wfFrom_setByte : ∀ {m : Memory} {lo : Nat}, Memory.wfFrom lo m = true → ∀ {a : Nat} (v : Byte), lo ≤ a → a < 256 →
    Memory.wfFrom lo (setByte m a v) = true
  | [], _, _, a, v, hlo, ha => by
    unfold setByte
    exact wfFrom_consCell rfl hlo ha
  | (b, w) :: m, lo, hm, a, v, hlo, ha => by
    have hm' := (Memory.wfFrom_cons ..).1 hm
    unfold setByte
    split
    · next h => exact wfFrom_consCell ((Memory.wfFrom_cons ..).2 ⟨h, hm'.2⟩) hlo ha
    · split
      · next h => exact wfFrom_consCell (h ▸ hm'.2.2.2) hlo ha
      · exact (Memory.wfFrom_cons ..).2 ⟨hm'.1, hm'.2.1, hm'.2.2.1, wfFrom_setByte hm'.2.2.2 v (by omega) ha⟩

theorem Memory.wf_setByte {m : Memory} (hm : m.wf = true) {a : Nat} (v : Byte) (ha : a < 256) : (setByte m a v).wf = true :=
  wfFrom_setByte hm v (Nat.zero_le a) ha

theorem wfFrom_bytesFrom (f : Nat → Byte) : ∀ (n lo : Nat), lo + n ≤ 256 → Memory.wfFrom lo (bytesFrom f n lo) = true
  | 0, _, _ => rfl
  | n + 1, lo, h => wfFrom_consCell (wfFrom_bytesFrom f n (lo + 1) (by omega)) (le_refl lo) (by omega)

theorem byteAt_bytesFrom (f : Nat → Byte) : ∀ (n lo : Nat), lo + n ≤ 256 → ∀ k,
    byteAt (bytesFrom f n lo) k = if lo ≤ k ∧ k < lo + n then f k else 0#8
  | 0, lo, _, k => by rw [if_neg (by omega)]; rfl
  | n + 1, lo, h, k => by
    unfold bytesFrom
    rw [byteAt_consCell (wfFrom_bytesFrom f n (lo + 1) (by omega)) (Nat.lt_succ_self lo),
      byteAt_bytesFrom f n (lo + 1) (by omega)]
    split
    · next hk => rw [if_pos (by omega), hk]
    · split
      · rw [if_pos (by omega)]
      · rw [if_neg (by omega)]

theorem wf_bytesFrom (f : Nat → Byte) : (bytesFrom f 256 0).wf = true := wfFrom_bytesFrom f 256 0 (le_refl _)

theorem wf_setWord {m : Memory} (hm : m.wf = true) {k : Nat} (hk : k + 3 < 256) (v : Word) : (setWord m k v).wf = true :=
  Memory.wf_setByte (Memory.wf_setByte (Memory.wf_setByte (Memory.wf_setByte hm _ (by omega)) _ (by omega)) _ (by omega)) _ hk

/-- The bytes after a word is written at `k`. -/
theorem byteAt_setWord {m : Memory} (hm : m.wf = true) {k : Nat} (hk : k + 3 < 256) (v : Word) (j : Nat) :
    byteAt (setWord m k v) j = if k ≤ j ∧ j < k + 4 then v.extractLsb' (8 * (j - k)) 8 else byteAt m j := by
  have h0 := Memory.wf_setByte hm (v.extractLsb' 0 8) (a := k) (by omega)
  have h1 := Memory.wf_setByte h0 (v.extractLsb' 8 8) (a := k + 1) (by omega)
  have h2 := Memory.wf_setByte h1 (v.extractLsb' 16 8) (a := k + 2) (by omega)
  unfold setWord
  rw [byteAt_setByte h2, byteAt_setByte h1, byteAt_setByte h0, byteAt_setByte hm]
  split
  · next h => rw [if_pos (by omega), show 8 * (j - k) = 24 by omega]
  split
  · next h => rw [if_pos (by omega), show 8 * (j - k) = 16 by omega]
  split
  · next h => rw [if_pos (by omega), show 8 * (j - k) = 8 by omega]
  split
  · next h => rw [if_pos (by omega), show 8 * (j - k) = 0 by omega]
  rw [if_neg (by omega)]

/-- Buffers in canonical form are determined by their bytes. -/
theorem Memory.ext_of_wfFrom : ∀ {m m' : Memory} {lo : Nat}, Memory.wfFrom lo m = true → Memory.wfFrom lo m' = true →
    (∀ k, byteAt m k = byteAt m' k) → m = m'
  | [], [], _, _, _, _ => rfl
  | [], (b, w) :: m', _, _, h', he => by
    have := he b
    rw [byteAt_nil, byteAt_cons, if_pos rfl] at this
    exact absurd this.symm ((Memory.wfFrom_cons ..).1 h').2.2.1
  | (a, v) :: m, [], _, h, _, he => by
    have := he a
    rw [byteAt_nil, byteAt_cons, if_pos rfl] at this
    exact absurd this ((Memory.wfFrom_cons ..).1 h).2.2.1
  | (a, v) :: m, (b, w) :: m', lo, h, h', he => by
    have hm := (Memory.wfFrom_cons ..).1 h
    have hm' := (Memory.wfFrom_cons ..).1 h'
    have hab : a = b := by
      rcases Nat.lt_trichotomy a b with hlt | heq | hgt
      · have := he a
        rw [byteAt_cons, if_pos rfl, byteAt_cons, if_neg (by omega), byteAt_of_wfFrom hm'.2.2.2 (by omega)] at this
        exact absurd this hm.2.2.1
      · exact heq
      · have := he b
        rw [byteAt_cons, if_neg (by omega), byteAt_cons, if_pos rfl, byteAt_of_wfFrom hm.2.2.2 (by omega)] at this
        exact absurd this.symm hm'.2.2.1
    subst hab
    have hvw : v = w := by simpa [byteAt_cons] using he a
    subst hvw
    rw [Memory.ext_of_wfFrom hm.2.2.2 hm'.2.2.2 fun k => ?_]
    have := he k
    rw [byteAt_cons, byteAt_cons] at this
    by_cases hk : a = k
    · rw [byteAt_of_wfFrom hm.2.2.2 (by omega), byteAt_of_wfFrom hm'.2.2.2 (by omega)]
    · rwa [if_neg hk, if_neg hk] at this

/-! Byte order. -/

theorem leNat_lt (f : Nat → Byte) : ∀ n, leNat f n < 2 ^ (8 * n)
  | 0 => by simp [leNat]
  | n + 1 => by
    have h1 := leNat_lt f n
    have h2 : (f n).toNat < 2 ^ 8 := (f n).isLt
    have h3 : (2 : Nat) ^ (8 * (n + 1)) = 2 ^ 8 * 2 ^ (8 * n) := by rw [← pow_add]; congr 1; omega
    unfold leNat
    have h4 : (f n).toNat * 2 ^ (8 * n) ≤ (2 ^ 8 - 1) * 2 ^ (8 * n) := Nat.mul_le_mul_right _ (by omega)
    have h5 : (2 ^ 8 - 1) * 2 ^ (8 * n) + 2 ^ (8 * n) = 2 ^ 8 * 2 ^ (8 * n) := by ring
    omega

theorem leNat_eq_sum (f : Nat → Byte) (n : Nat) : leNat f n = ∑ j ∈ Finset.range n, (f j).toNat * 2 ^ (8 * j) := by
  induction n with
  | zero => rfl
  | succ n ih => rw [Finset.sum_range_succ, ← ih]; rfl

theorem leLane_toNat (f : Nat → Byte) : (leLane f).toNat = leNat f 16 := by
  rw [leLane, BitVec.toNat_ofNat, Nat.mod_eq_of_lt (leNat_lt f 16)]

theorem leWord_toNat (f : Nat → Byte) : (leWord f).toNat = leNat f 4 := by
  rw [leWord, BitVec.toNat_ofNat, Nat.mod_eq_of_lt (leNat_lt f 4)]

theorem laneByte_toNat (v : Lane) (j : Nat) : (laneByte v j).toNat = v.toNat / 2 ^ (8 * j) % 256 := by
  rw [laneByte, BitVec.extractLsb'_toNat, Nat.shiftRight_eq_div_pow]

/-- The bytes a little-endian number was made of. -/
theorem leNat_byte (f : Nat → Byte) {n j : Nat} (h : j < n) : leNat f n / 2 ^ (8 * j) % 256 = (f j).toNat := by
  induction n with
  | zero => omega
  | succ n ih =>
    rw [leNat]
    rcases Nat.lt_or_ge j n with hj | hj
    · have split : (f n).toNat * 2 ^ (8 * n) = 2 ^ (8 * j) * (256 * ((f n).toNat * 2 ^ (8 * (n - j - 1)))) := by
        have : 2 ^ (8 * n) = 2 ^ (8 * j) * (256 * 2 ^ (8 * (n - j - 1))) := by
          rw [show (256 : Nat) = 2 ^ 8 by rfl, ← pow_add, ← pow_add]
          congr 1
          omega
        rw [this]
        ring
      rw [← ih hj, split, Nat.add_mul_div_left _ _ (by positivity), Nat.add_mul_mod_self_left]
    · obtain rfl : j = n := by omega
      rw [Nat.add_mul_div_right _ _ (by positivity), Nat.div_eq_of_lt (leNat_lt f j), Nat.zero_add,
        Nat.mod_eq_of_lt (f j).isLt]

theorem leNat_congr {f g : Nat → Byte} : ∀ {n : Nat}, (∀ j < n, f j = g j) → leNat f n = leNat g n
  | 0, _ => rfl
  | n + 1, h => by
    unfold leNat
    rw [leNat_congr fun j hj => h j (Nat.lt_succ_of_lt hj), h n (Nat.lt_succ_self n)]

end Sys2Proof.Machine
end

