-- ==== Sys2Proof/Laws/State.lean ====
section
/-! SUPPORT. For each update of the state, the value of each field after it: all by unfolding once. -/

namespace Sys2Proof.Machine

variable (s : State)

/-! `reject`. -/

@[simp] theorem State.reject_lanes (e : Err) : (s.reject e).lanes = s.lanes := rfl
@[simp] theorem State.reject_round (e : Err) : (s.reject e).round = s.round := rfl
@[simp] theorem State.reject_lastop (e : Err) : (s.reject e).lastop = s.lastop := rfl
@[simp] theorem State.reject_busy (e : Err) : (s.reject e).busy = s.busy := rfl
@[simp] theorem State.reject_done (e : Err) : (s.reject e).done = s.done := rfl
@[simp] theorem State.reject_err (e : Err) : (s.reject e).err = true := rfl
@[simp] theorem State.reject_errcode (e : Err) : (s.reject e).errcode = errCode e := rfl
@[simp] theorem State.reject_inlen (e : Err) : (s.reject e).inlen = s.inlen := rfl
@[simp] theorem State.reject_inbuf (e : Err) : (s.reject e).inbuf = s.inbuf := rfl
@[simp] theorem State.reject_outbuf (e : Err) : (s.reject e).outbuf = s.outbuf := rfl
@[simp] theorem State.reject_resetIn (e : Err) : (s.reject e).resetIn = s.resetIn := rfl
@[simp] theorem State.reject_pending (e : Err) : (s.reject e).pending = s.pending := rfl
@[simp] theorem State.reject_replies (e : Err) : (s.reject e).replies = s.replies := rfl
@[simp] theorem State.reject_draws (e : Err) : (s.reject e).draws = s.draws := rfl

/-! `flagAccepted`. -/

@[simp] theorem State.flagAccepted_lanes (i : Instr) : (s.flagAccepted i).lanes = s.lanes := rfl
@[simp] theorem State.flagAccepted_round (i : Instr) : (s.flagAccepted i).round = s.round := rfl
@[simp] theorem State.flagAccepted_lastop (i : Instr) : (s.flagAccepted i).lastop = i.op := rfl
@[simp] theorem State.flagAccepted_busy (i : Instr) : (s.flagAccepted i).busy = true := rfl
@[simp] theorem State.flagAccepted_done (i : Instr) : (s.flagAccepted i).done = false := rfl
@[simp] theorem State.flagAccepted_err (i : Instr) : (s.flagAccepted i).err = false := rfl
@[simp] theorem State.flagAccepted_errcode (i : Instr) : (s.flagAccepted i).errcode = 0#4 := rfl
@[simp] theorem State.flagAccepted_inlen (i : Instr) : (s.flagAccepted i).inlen = s.inlen := rfl
@[simp] theorem State.flagAccepted_inbuf (i : Instr) : (s.flagAccepted i).inbuf = s.inbuf := rfl
@[simp] theorem State.flagAccepted_outbuf (i : Instr) : (s.flagAccepted i).outbuf = s.outbuf := rfl
@[simp] theorem State.flagAccepted_resetIn (i : Instr) : (s.flagAccepted i).resetIn = s.resetIn := rfl
@[simp] theorem State.flagAccepted_pending (i : Instr) : (s.flagAccepted i).pending = s.pending := rfl
@[simp] theorem State.flagAccepted_replies (i : Instr) : (s.flagAccepted i).replies = s.replies := rfl
@[simp] theorem State.flagAccepted_draws (i : Instr) : (s.flagAccepted i).draws = s.draws := rfl

/-! `flagCompleted`. -/

@[simp] theorem State.flagCompleted_lanes : (s.flagCompleted).lanes = s.lanes := rfl
@[simp] theorem State.flagCompleted_round : (s.flagCompleted).round = s.round := rfl
@[simp] theorem State.flagCompleted_lastop : (s.flagCompleted).lastop = s.lastop := rfl
@[simp] theorem State.flagCompleted_busy : (s.flagCompleted).busy = false := rfl
@[simp] theorem State.flagCompleted_done : (s.flagCompleted).done = true := rfl
@[simp] theorem State.flagCompleted_err : (s.flagCompleted).err = s.err := rfl
@[simp] theorem State.flagCompleted_errcode : (s.flagCompleted).errcode = s.errcode := rfl
@[simp] theorem State.flagCompleted_inlen : (s.flagCompleted).inlen = s.inlen := rfl
@[simp] theorem State.flagCompleted_inbuf : (s.flagCompleted).inbuf = s.inbuf := rfl
@[simp] theorem State.flagCompleted_outbuf : (s.flagCompleted).outbuf = s.outbuf := rfl
@[simp] theorem State.flagCompleted_resetIn : (s.flagCompleted).resetIn = s.resetIn := rfl
@[simp] theorem State.flagCompleted_pending : (s.flagCompleted).pending = s.pending := rfl
@[simp] theorem State.flagCompleted_replies : (s.flagCompleted).replies = s.replies := rfl
@[simp] theorem State.flagCompleted_draws : (s.flagCompleted).draws = s.draws := rfl

/-! `answer`. -/

@[simp] theorem State.answer_lanes (r : Reply) : (s.answer r).lanes = s.lanes := rfl
@[simp] theorem State.answer_round (r : Reply) : (s.answer r).round = s.round := rfl
@[simp] theorem State.answer_lastop (r : Reply) : (s.answer r).lastop = s.lastop := rfl
@[simp] theorem State.answer_busy (r : Reply) : (s.answer r).busy = s.busy := rfl
@[simp] theorem State.answer_done (r : Reply) : (s.answer r).done = s.done := rfl
@[simp] theorem State.answer_err (r : Reply) : (s.answer r).err = s.err := rfl
@[simp] theorem State.answer_errcode (r : Reply) : (s.answer r).errcode = s.errcode := rfl
@[simp] theorem State.answer_inlen (r : Reply) : (s.answer r).inlen = s.inlen := rfl
@[simp] theorem State.answer_inbuf (r : Reply) : (s.answer r).inbuf = s.inbuf := rfl
@[simp] theorem State.answer_outbuf (r : Reply) : (s.answer r).outbuf = s.outbuf := rfl
@[simp] theorem State.answer_resetIn (r : Reply) : (s.answer r).resetIn = s.resetIn := rfl
@[simp] theorem State.answer_pending (r : Reply) : (s.answer r).pending = s.pending := rfl
@[simp] theorem State.answer_replies (r : Reply) : (s.answer r).replies = r :: s.replies := rfl
@[simp] theorem State.answer_draws (r : Reply) : (s.answer r).draws = s.draws := rfl

/-! `accept`. -/

@[simp] theorem State.accept_lanes (i : Instr) (S : Lanes) : (s.accept i S).lanes = S := rfl
@[simp] theorem State.accept_round (i : Instr) (S : Lanes) : (s.accept i S).round = 0#32 := rfl
@[simp] theorem State.accept_lastop (i : Instr) (S : Lanes) : (s.accept i S).lastop = i.op := rfl
@[simp] theorem State.accept_busy (i : Instr) (S : Lanes) : (s.accept i S).busy = true := rfl
@[simp] theorem State.accept_done (i : Instr) (S : Lanes) : (s.accept i S).done = false := rfl
@[simp] theorem State.accept_err (i : Instr) (S : Lanes) : (s.accept i S).err = false := rfl
@[simp] theorem State.accept_errcode (i : Instr) (S : Lanes) : (s.accept i S).errcode = 0#4 := rfl
@[simp] theorem State.accept_inlen (i : Instr) (S : Lanes) : (s.accept i S).inlen = s.inlen := rfl
@[simp] theorem State.accept_inbuf (i : Instr) (S : Lanes) : (s.accept i S).inbuf = s.inbuf := rfl
@[simp] theorem State.accept_outbuf (i : Instr) (S : Lanes) : (s.accept i S).outbuf = s.outbuf := rfl
@[simp] theorem State.accept_resetIn (i : Instr) (S : Lanes) : (s.accept i S).resetIn = s.resetIn := rfl
@[simp] theorem State.accept_pending (i : Instr) (S : Lanes) : (s.accept i S).pending = s.pending := rfl
@[simp] theorem State.accept_replies (i : Instr) (S : Lanes) : (s.accept i S).replies = s.replies := rfl
@[simp] theorem State.accept_draws (i : Instr) (S : Lanes) : (s.accept i S).draws = s.draws := rfl

/-! `roundStep`. -/

@[simp] theorem State.roundStep_lanes (c : Params) (i : Instr) : (s.roundStep c i).lanes = roundLanes c i s.round.toNat s.lanes := rfl
@[simp] theorem State.roundStep_round (c : Params) (i : Instr) : (s.roundStep c i).round = s.round + 1#32 := rfl
@[simp] theorem State.roundStep_lastop (c : Params) (i : Instr) : (s.roundStep c i).lastop = s.lastop := rfl
@[simp] theorem State.roundStep_busy (c : Params) (i : Instr) : (s.roundStep c i).busy = s.busy := rfl
@[simp] theorem State.roundStep_done (c : Params) (i : Instr) : (s.roundStep c i).done = s.done := rfl
@[simp] theorem State.roundStep_err (c : Params) (i : Instr) : (s.roundStep c i).err = s.err := rfl
@[simp] theorem State.roundStep_errcode (c : Params) (i : Instr) : (s.roundStep c i).errcode = s.errcode := rfl
@[simp] theorem State.roundStep_inlen (c : Params) (i : Instr) : (s.roundStep c i).inlen = s.inlen := rfl
@[simp] theorem State.roundStep_inbuf (c : Params) (i : Instr) : (s.roundStep c i).inbuf = s.inbuf := rfl
@[simp] theorem State.roundStep_outbuf (c : Params) (i : Instr) : (s.roundStep c i).outbuf = s.outbuf := rfl
@[simp] theorem State.roundStep_resetIn (c : Params) (i : Instr) : (s.roundStep c i).resetIn = s.resetIn := rfl
@[simp] theorem State.roundStep_pending (c : Params) (i : Instr) : (s.roundStep c i).pending = s.pending := rfl
@[simp] theorem State.roundStep_replies (c : Params) (i : Instr) : (s.roundStep c i).replies = s.replies := rfl
@[simp] theorem State.roundStep_draws (c : Params) (i : Instr) : (s.roundStep c i).draws = s.draws := rfl

/-! `complete`. -/

@[simp] theorem State.complete_lanes (c : Params) (i : Instr) : (s.complete c i).lanes = finalLanes c i s.lanes := rfl
@[simp] theorem State.complete_round (c : Params) (i : Instr) : (s.complete c i).round = s.round := rfl
@[simp] theorem State.complete_lastop (c : Params) (i : Instr) : (s.complete c i).lastop = s.lastop := rfl
@[simp] theorem State.complete_busy (c : Params) (i : Instr) : (s.complete c i).busy = false := rfl
@[simp] theorem State.complete_done (c : Params) (i : Instr) : (s.complete c i).done = true := rfl
@[simp] theorem State.complete_err (c : Params) (i : Instr) : (s.complete c i).err = s.err := rfl
@[simp] theorem State.complete_errcode (c : Params) (i : Instr) : (s.complete c i).errcode = s.errcode := rfl
@[simp] theorem State.complete_inlen (c : Params) (i : Instr) : (s.complete c i).inlen = s.inlen := rfl
@[simp] theorem State.complete_inbuf (c : Params) (i : Instr) : (s.complete c i).inbuf = s.inbuf := rfl
@[simp] theorem State.complete_outbuf (c : Params) (i : Instr) : (s.complete c i).outbuf = finalOutbuf c i s.lanes := rfl
@[simp] theorem State.complete_resetIn (c : Params) (i : Instr) : (s.complete c i).resetIn = s.resetIn := rfl
@[simp] theorem State.complete_pending (c : Params) (i : Instr) : (s.complete c i).pending = s.pending := rfl
@[simp] theorem State.complete_replies (c : Params) (i : Instr) : (s.complete c i).replies = s.replies := rfl
@[simp] theorem State.complete_draws (c : Params) (i : Instr) : (s.complete c i).draws = s.draws := rfl

/-! `initialised`. -/

@[simp] theorem State.initialised_lanes (b : Bool) : (s.initialised b).lanes = State.reset.lanes := rfl
@[simp] theorem State.initialised_round (b : Bool) : (s.initialised b).round = State.reset.round := rfl
@[simp] theorem State.initialised_lastop (b : Bool) : (s.initialised b).lastop = State.reset.lastop := rfl
@[simp] theorem State.initialised_busy (b : Bool) : (s.initialised b).busy = State.reset.busy := rfl
@[simp] theorem State.initialised_done (b : Bool) : (s.initialised b).done = State.reset.done := rfl
@[simp] theorem State.initialised_err (b : Bool) : (s.initialised b).err = State.reset.err := rfl
@[simp] theorem State.initialised_errcode (b : Bool) : (s.initialised b).errcode = State.reset.errcode := rfl
@[simp] theorem State.initialised_inlen (b : Bool) : (s.initialised b).inlen = State.reset.inlen := rfl
@[simp] theorem State.initialised_inbuf (b : Bool) : (s.initialised b).inbuf = State.reset.inbuf := rfl
@[simp] theorem State.initialised_outbuf (b : Bool) : (s.initialised b).outbuf = State.reset.outbuf := rfl
@[simp] theorem State.initialised_resetIn (b : Bool) : (s.initialised b).resetIn = b := rfl
@[simp] theorem State.initialised_pending (b : Bool) : (s.initialised b).pending = s.pending := rfl
@[simp] theorem State.initialised_replies (b : Bool) : (s.initialised b).replies = s.replies := rfl
@[simp] theorem State.initialised_draws (b : Bool) : (s.initialised b).draws = s.draws := rfl

/-! `hostRead`. -/

@[simp] theorem hostRead_lanes (c : Params) (off : Nat) : (hostRead c off s).lanes = s.lanes := rfl
@[simp] theorem hostRead_round (c : Params) (off : Nat) : (hostRead c off s).round = s.round := rfl
@[simp] theorem hostRead_lastop (c : Params) (off : Nat) : (hostRead c off s).lastop = s.lastop := rfl
@[simp] theorem hostRead_busy (c : Params) (off : Nat) : (hostRead c off s).busy = s.busy := rfl
@[simp] theorem hostRead_done (c : Params) (off : Nat) : (hostRead c off s).done = s.done := rfl
@[simp] theorem hostRead_err (c : Params) (off : Nat) : (hostRead c off s).err = s.err := rfl
@[simp] theorem hostRead_errcode (c : Params) (off : Nat) : (hostRead c off s).errcode = s.errcode := rfl
@[simp] theorem hostRead_inlen (c : Params) (off : Nat) : (hostRead c off s).inlen = s.inlen := rfl
@[simp] theorem hostRead_inbuf (c : Params) (off : Nat) : (hostRead c off s).inbuf = s.inbuf := rfl
@[simp] theorem hostRead_outbuf (c : Params) (off : Nat) : (hostRead c off s).outbuf = s.outbuf := rfl
@[simp] theorem hostRead_resetIn (c : Params) (off : Nat) : (hostRead c off s).resetIn = s.resetIn := rfl
@[simp] theorem hostRead_pending (c : Params) (off : Nat) : (hostRead c off s).pending = s.pending := rfl
@[simp] theorem hostRead_replies (c : Params) (off : Nat) : (hostRead c off s).replies = readReply c s off :: s.replies := rfl
@[simp] theorem hostRead_draws (c : Params) (off : Nat) : (hostRead c off s).draws = if s.busy && drawnWhileBusy off then s.draws + 1 else s.draws := rfl

end Sys2Proof.Machine
end

