-- ==== Sys2Proof/Laws/Command.lean ====
section
/-! SUPPORT. What presenting a command does, once for all five: its input lanes are the sums R87 and R10 write, and it is
rejected with the first error of R181 or accepted. Also: `exec` and `step` are those of the instance `Config.params`. -/

namespace Sys2Proof.Machine

theorem exec_eq_execWith (i : Instr) (s : State) : exec i s = execWith Config.params i s := by cases i <;> rfl

theorem step_eq_stepWith (s : State) : step s = stepWith Config.params s := by
  have h : exec = execWith Config.params := funext fun i => funext fun s => exec_eq_execWith i s
  rw [step, h, stepWith]

/-! Operands. -/

theorem laneOf_toNat (buf : Memory) (i : Nat) : (laneOf buf i).toNat = elementValue buf i := by
  rw [laneOf, leLane_toNat, leNat_eq_sum, elementValue]

/-- The loop of R87 up to byte `n`, lane `i`, is the lane's bytes below `n`. -/
theorem loopLane_eq_leNat (buf : Memory) (i n : Nat) :
    loopLane buf i n = leNat (fun j => if 16 * i + j < n then byteAt buf (16 * i + j) else 0#8) 16 := by
  rw [leNat_eq_sum]
  induction n with
  | zero => simp [loopLane]
  | succ k ih =>
    rw [loopLane, ih]
    by_cases hk : k / 16 = i
    · have hmem : k % 16 ∈ Finset.range 16 := Finset.mem_range.2 (Nat.mod_lt _ (by decide))
      rw [if_pos hk, ← Finset.add_sum_erase _ _ hmem, ← Finset.add_sum_erase _ _ hmem,
        if_neg (by omega), if_pos (by omega), show 16 * i + k % 16 = k by omega]
      have : ∀ j ∈ (Finset.range 16).erase (k % 16), ((16 * i + j < k) ↔ (16 * i + j < k + 1)) := by
        intro j hj
        have := Finset.ne_of_mem_erase hj
        omega
      rw [Finset.sum_congr rfl fun j hj => by rw [if_congr (this j hj) rfl rfl]]
      simp [Nat.add_comm]
    · rw [if_neg hk, Nat.add_zero]
      refine Finset.sum_congr rfl fun j hj => ?_
      have := Finset.mem_range.1 hj
      have hiff : 16 * i + j < k ↔ 16 * i + j < k + 1 := by omega
      rw [if_congr hiff rfl rfl]

theorem loadFixedLane_toNat (buf : Memory) (n i : Nat) : (loadFixedLane buf n i).toNat = loopLane buf i n := by
  rw [loadFixedLane, leLane_toNat, loopLane_eq_leNat]

theorem laneAt_loadFixed (buf : Memory) (n i : Nat) :
    laneAt (loadFixed buf n) i = if i < 6 then loadFixedLane buf n i else 0#128 := by
  rw [loadFixed, laneAt_lanesOf]
  by_cases h : i < 16
  · rw [if_pos h]
  · rw [if_neg h, if_neg (by omega)]

theorem laneAt_loadElements {n : Nat} (hn : n ≤ 16) (buf : Memory) (i : Nat) :
    laneAt (loadElements buf n) i = if i < n then laneOf buf i else 0#128 := by
  rw [loadElements, laneAt_lanesOf]
  by_cases h : i < 16
  · rw [if_pos h]
  · rw [if_neg h, if_neg (by omega)]

/-! The check. -/

/-- The lanes or elements a command's acceptance checks (R181). -/
def inputOf (i : Instr) (s : State) : List Lane :=
  match i with
  | .hspread => fixedInput s.inbuf s.inlen.toNat
  | .hrescue => fixedInput s.inbuf s.inlen.toNat
  | .hfeistel => fixedInput s.inbuf s.inlen.toNat
  | .sdigest => elementInput s.inbuf s.inlen.toNat
  | .invmds => elementInput s.inbuf s.inlen.toNat

theorem presentCommand_eq (c : Params) (i : Instr) (s : State) :
    presentCommand c i s =
      s.present c i (limitOf c i) (inputOf i s) (loadedLanes c i s.inbuf s.inlen.toNat) := by
  cases i <;> rfl

theorem all_canon_map_range (c : Params) (f : Nat → Lane) (n : Nat) :
    ((List.range n).map f).all (canon c) = true ↔ ∀ k < n, (f k).toNat < c.P := by
  rw [List.all_eq_true, List.forall_mem_map]
  exact forall_congr' fun k => imp_congr List.mem_range decide_eq_true_iff

theorem all_canon_inputOf (c : Params) (i : Instr) (s : State) :
    (inputOf i s).all (canon c) = true ↔ InputCanonical c i s := by
  have fixed : (fixedInput s.inbuf s.inlen.toNat).all (canon c) = true ↔
      ∀ l < 6, loopLane s.inbuf l s.inlen.toNat < c.P := by
    rw [fixedInput, all_canon_map_range]
    exact forall₂_congr fun l _ => by rw [loadFixedLane_toNat]
  have elements : (elementInput s.inbuf s.inlen.toNat).all (canon c) = true ↔
      ∀ k < s.inlen.toNat, elementValue s.inbuf k < c.P := by
    rw [elementInput, all_canon_map_range]
    exact forall₂_congr fun k _ => by rw [laneOf_toNat]
  cases i
  · exact fixed
  · exact fixed
  · exact fixed
  · exact elements
  · exact elements

/-- The error `check` finds, if the command is not acceptable (R181). -/
theorem presentCommand_cases (c : Params) (i : Instr) (s : State) :
    (s.busy = true ∧ presentCommand c i s = s.reject .busy) ∨
    (s.busy = false ∧ limitOf c i < s.inlen.toNat ∧ presentCommand c i s = s.reject .inputTooLong) ∨
    (s.busy = false ∧ s.inlen.toNat ≤ limitOf c i ∧ ¬ InputCanonical c i s ∧
      presentCommand c i s = s.reject .noncanonical) ∨
    (Acceptable c i s ∧ presentCommand c i s = s.accept i (loadedLanes c i s.inbuf s.inlen.toNat)) := by
  rw [presentCommand_eq, State.present, check]
  rcases hb : s.busy
  · by_cases hl : limitOf c i < s.inlen.toNat
    · exact .inr (.inl ⟨rfl, hl, by simp [hl]⟩)
    · by_cases hc : (inputOf i s).all (canon c) = true
      · exact .inr (.inr (.inr ⟨⟨hb, by omega, (all_canon_inputOf c i s).1 hc⟩, by simp [hl, hc]⟩))
      · exact .inr (.inr (.inl ⟨rfl, by omega, fun h => hc ((all_canon_inputOf c i s).2 h), by simp [hl, hc]⟩))
  · exact .inl ⟨rfl, by simp⟩

theorem presentCommand_of_acceptable {c : Params} {i : Instr} {s : State} (h : Acceptable c i s) :
    presentCommand c i s = s.accept i (loadedLanes c i s.inbuf s.inlen.toNat) := by
  rcases presentCommand_cases c i s with ⟨hb, _⟩ | ⟨_, hl, _⟩ | ⟨_, _, hc, _⟩ | ⟨_, h'⟩
  · exact absurd h.idle (by simp [hb])
  · exact absurd h.length (by omega)
  · exact absurd h.canonical hc
  · exact h'

/-- A command's opcode selects it back (R84, R25). -/
@[simp] theorem opInstr_op (i : Instr) : opInstr i.op = some i := by cases i <;> decide

end Sys2Proof.Machine
end

