-- ==== Sys2Proof/Laws/Step.lean ====
section
/-! SUPPORT. Everything one step can do, said once, with the host's move that makes it do so: each invariant's proof goes
through `stepWith_did`. -/

namespace Sys2Proof.Machine

@[simp] theorem State.move_nil {s : State} (h : s.pending = []) : s.move = .wait := by rw [State.move, h]

@[simp] theorem State.move_cons {s : State} {e : Event} {rest : List Event} (h : s.pending = e :: rest) : s.move = e := by
  rw [State.move, h]

/-- A step with nothing pending is a turn without an access. -/
theorem stepWith_nil {c : Params} {s : State} (h : s.pending = []) : stepWith c s = idleTurn c s := by
  rw [stepWith, machineStep, State.move_nil h, h]
  obtain ⟨b, pending, replies, draws⟩ := s
  cases h
  rfl

/-- A step takes the oldest pending event. -/
theorem stepWith_cons {c : Params} {s : State} {e : Event} {rest : List Event} (h : s.pending = e :: rest) :
    stepWith c s = onEvent c (execWith c) e { s with pending := rest } := by
  rw [stepWith, machineStep, State.move_cons h, h, List.tail_cons]

/-- The cases of a step that answers a next state under the host's move `e`: `s` is the state before it, its pending events,
replies and draws as the step leaves them. -/
inductive StepDid (c : Params) (e : Event) (s : State) : State → Prop
  /-- A turn of an idle block, a read, a bus error, an access outside the window. -/
  | nothing (he : e.isReset = false) (hw : e.isWait = true → s.resetIn = false ∧ s.busy = false) : StepDid c e s s
  /-- A rejected write (R201). -/
  | rejected (hr : s.resetIn = false) (off : Nat) (v : Word) (hw : HostWrites c off v e) (err : Err) :
    StepDid c e s (s.reject err)
  /-- An accepted command (R182). -/
  | accepted (hr : s.resetIn = false) (v : Word) (hw : HostWrites c 0x000 v e) (i : Instr) (hd : decode v = .ok i)
    (h : Acceptable c i s) : StepDid c e s (s.accept i (loadedLanes c i s.inbuf s.inlen.toNat))
  /-- INLEN written (R53). -/
  | wroteInlen (hr : s.resetIn = false) (hb : s.busy = false) (v : Word) (hw : HostWrites c 0x008 v e) :
    StepDid c e s { s with inlen := v }
  /-- INBUF written (R53). -/
  | wroteInbuf (hr : s.resetIn = false) (hb : s.busy = false) (off : Nat) (v : Word) (hw : HostWrites c off v e)
    (h1 : 0x100 ≤ off) (h2 : off ≤ 0x1FC) : StepDid c e s { s with inbuf := setWord s.inbuf (off - 0x100) v }
  /-- A round step (R186). -/
  | round (he : e.isWait = true) (hr : s.resetIn = false) (hb : s.busy = true) (i : Instr) (ho : opInstr s.lastop = some i)
    (hk : s.round.toNat < roundCount c i) : StepDid c e s (s.roundStep c i)
  /-- The completion step (R188). -/
  | completed (he : e.isWait = true) (hr : s.resetIn = false) (hb : s.busy = true) (i : Instr)
    (ho : opInstr s.lastop = some i) (hk : s.round.toNat = roundCount c i) : StepDid c e s (s.complete c i)
  /-- The reset input (R230). -/
  | initialised (b : Bool) (h : e.isReset = true ∨ e.isWait = true ∧ s.resetIn = true) : StepDid c e s (s.initialised b)

theorem presentCommand_did {c : Params} {e : Event} {s : State} {v : Word} {i : Instr} (hr : s.resetIn = false)
    (hw : HostWrites c 0x000 v e) (hd : decode v = .ok i) : StepDid c e s (presentCommand c i s) := by
  rcases presentCommand_cases c i s with ⟨_, h⟩ | ⟨_, _, h⟩ | ⟨_, _, _, h⟩ | ⟨ha, h⟩
  · rw [h]; exact .rejected hr _ v hw _
  · rw [h]; exact .rejected hr _ v hw _
  · rw [h]; exact .rejected hr _ v hw _
  · rw [h]; exact .accepted hr v hw i hd ha

theorem engineStep_did {c : Params} {s t : State} (hr : s.resetIn = false) (hb : s.busy = true)
    (h : engineStep c s = .next t) : StepDid c .wait s t := by
  unfold engineStep at h
  split at h
  · cases h
  · next i ho =>
    split at h
    · next hk => cases h; exact .round rfl hr hb i ho hk
    · split at h
      · next hk => cases h; exact .completed rfl hr hb i ho hk
      · cases h

theorem idleTurn_did {c : Params} {s t : State} (h : idleTurn c s = .next t) : StepDid c .wait s t := by
  unfold idleTurn at h
  split at h
  · next hr => cases h; exact .initialised true (.inr ⟨rfl, hr⟩)
  · next hr =>
    have hr : s.resetIn = false := by simpa using hr
    split at h
    · next hb => exact engineStep_did hr hb h
    · next hb => cases h; exact .nothing rfl fun _ => ⟨hr, by simpa using hb⟩

/-- What a write does that `hostWrite` is given by the move `e`. -/
theorem hostWrite_did {c : Params} {e : Event} {s t : State} {off : Nat} {v : Word} (hr : s.resetIn = false)
    (hw : HostWrites c off v e) (h4 : off % 4 = 0) (h : hostWrite (execWith c) off v s = .next t) :
    ∃ s', s'.toFmpp = s.toFmpp ∧ StepDid c e s' t := by
  have idle : ∀ s' : State, StepDid c e s' s' := fun s' => by
    cases e <;> first | exact .nothing rfl (fun h => absurd h Bool.false_ne_true) | exact hw.elim
  have hr : (s.answer .done).resetIn = false := hr
  unfold hostWrite at h
  split at h
  · next h0 =>
    subst h0
    unfold presentWord at h
    split at h
    · next i hd => cases h; exact ⟨s.answer .done, rfl, presentCommand_did hr hw hd⟩
    · cases h; exact ⟨s.answer .done, rfl, .rejected (s := s.answer .done) hr _ v hw _⟩
  · split at h
    · next h8 =>
      subst h8
      cases h
      refine ⟨s.answer .done, rfl, ?_⟩
      unfold writeInlen
      split
      · exact .rejected hr _ v hw .busy
      · next hb => exact .wroteInlen hr (by simpa using hb) v hw
    · split at h
      · next hin =>
        cases h
        refine ⟨s.answer .done, rfl, ?_⟩
        unfold writeInbuf
        split
        · exact .rejected hr _ v hw .busy
        · next hb => exact .wroteInbuf hr (by simpa using hb) off v hw hin.1 (by omega)
      · cases h; exact ⟨s.answer .busError, rfl, idle _⟩

/-- What an access does that the move `e` makes: `e` is no wait and no edge, and if the access is a write of a word, `e` writes
it. -/
theorem hostAccess_did {c : Params} {e : Event} {s t : State} {a : Access} (he : e.isReset = false) (hn : e.isWait = false)
    (hw : ∀ v, a.op = .write v → a.bytes = 4 → HostWrites c a.off v e) (h : hostAccess c (execWith c) a s = .next t) :
    ∃ s', s'.toFmpp = s.toFmpp ∧ StepDid c e s' t := by
  have idle : ∀ s' : State, StepDid c e s' s' := fun s' => .nothing he fun h => absurd (hn.symm.trans h) Bool.false_ne_true
  unfold hostAccess at h
  split at h
  · cases h; exact ⟨s, rfl, idle s⟩
  split at h
  · cases h
  next hwin hr =>
  split at h
  · next hwf =>
    simp only [Access.wellFormed, Bool.and_eq_true, beq_iff_eq] at hwf
    split at h
    · cases h; exact ⟨hostRead c a.off s, rfl, idle _⟩
    · next v hv => exact hostWrite_did (by simpa using hr) (hw v hv hwf.1) hwf.2 h
  · cases h; exact ⟨s.answer .busError, rfl, idle _⟩

/-- Everything a step under the move `e` that answers a next state can do. -/
theorem onEvent_did {c : Params} {e : Event} {s t : State} (h : onEvent c (execWith c) e s = .next t) :
    ∃ s', s'.toFmpp = s.toFmpp ∧ StepDid c e s' t := by
  unfold onEvent at h
  split at h
  · next a =>
    refine hostAccess_did rfl rfl (fun v hv hb => ?_) h
    obtain ⟨off, bytes, op⟩ := a
    cases hv; cases hb; rfl
  · next addr bytes op =>
    split at h
    · next off hoff =>
      refine hostAccess_did rfl rfl (fun v hv hb => ⟨?_, hb, hv⟩) h
      unfold windowOffset at hoff
      split at hoff
      · cases hoff; show addr = c.base + (addr - c.base); omega
      · cases hoff
    · cases h; exact ⟨s, rfl, .nothing rfl fun h => absurd h Bool.false_ne_true⟩
  · exact ⟨s, rfl, idleTurn_did h⟩
  · cases h; exact ⟨s, rfl, .initialised true (.inl rfl)⟩
  · cases h; exact ⟨s, rfl, .initialised false (.inl rfl)⟩

/-- Everything a step that answers a next state can do. -/
theorem stepWith_did {c : Params} {s t : State} (h : stepWith c s = .next t) :
    ∃ s', s'.toFmpp = s.toFmpp ∧ StepDid c s.move s' t := onEvent_did (s := { s with pending := s.pending.tail }) h

/-- Everything a step of the machine that answers a next state can do. -/
theorem step_did {s t : State} (h : step s = .next t) :
    ∃ s', s'.toFmpp = s.toFmpp ∧ StepDid Config.params s.move s' t :=
  stepWith_did (step_eq_stepWith s ▸ h)

end Sys2Proof.Machine
end

