-- ==== Sys2Proof/Laws/Engine.lean ====
section
/-! SUPPORT. The engine: which rounds are full, round counts fit ROUND, what a completion writes, and the steps a running
command takes when no event comes first. -/

namespace Sys2Proof.Machine

theorem spreadFull_iff (r : Nat) : spreadFull r = true ↔ r < 4 ∨ 87 ≤ r := by
  rw [spreadFull, Bool.or_eq_true, decide_eq_true_iff, decide_eq_true_iff]
  rfl

theorem roundCount_le {c : Params} (h : c.WellFormed) (i : Instr) : roundCount c i ≤ 65535 := by
  cases i
  · exact (by decide : 91 ≤ 65535)
  · exact h.nRescue
  · exact h.nFeistel
  · exact h.n_le
  · exact (by decide : 1 ≤ 65535)

theorem resultBytes_wf (S : Lanes) (n : Nat) : (resultBytes S n).wf = true := wf_bytesFrom _

theorem resultBytes_holds (S : Lanes) (n : Nat) : HoldsResult (resultBytes S n) S n := fun k hk => by
  rw [resultBytes, byteAt_bytesFrom _ _ _ (by decide), if_pos (by omega)]
  split
  · exact laneByte_toNat ..
  · rfl

/-- A completion writes the command's result elements of its final lanes (R185, R188). -/
theorem finalOutbuf_eq (c : Params) (i : Instr) (S : Lanes) :
    finalOutbuf c i S = resultBytes (finalLanes c i S) (resultCount c i) := by cases i <;> rfl

theorem stepWith_of_roundEnabled {c : Params} {i : Instr} {s : State} (h : RoundEnabled c i s) :
    stepWith c s = .next (s.roundStep c i) := by
  rw [stepWith_nil h.quiet]
  simp only [idleTurn, h.released, h.busy, engineStep, h.mode, opInstr_op, h.round, if_true, Bool.false_eq_true, if_false]

theorem stepWith_of_completionEnabled {c : Params} {i : Instr} {s : State} (h : CompletionEnabled c i s) :
    stepWith c s = .next (s.complete c i) := by
  rw [stepWith_nil h.quiet]
  simp only [idleTurn, h.released, h.busy, engineStep, h.mode, opInstr_op, h.round, if_true, lt_irrefl, Bool.false_eq_true,
    if_false]

end Sys2Proof.Machine
end

