-- ==== Sys2Proof/Laws/Field.lean ====
section
/-! SUPPORT. The field operations as naturals and as operations of `ZMod P`: each result is the exact value mod `P`, so
canonical. Then each layer, lane by lane, over the field. -/

namespace Sys2Proof.Machine

variable {c : Params}

theorem toNat_ofNat_mod (hp : 0 < c.P) (hl : c.P < 2 ^ 128) (n : Nat) : (BitVec.ofNat 128 (n % c.P)).toNat = n % c.P := by
  rw [BitVec.toNat_ofNat, Nat.mod_eq_of_lt ((Nat.mod_lt n hp).trans hl)]

theorem fadd_toNat (h : c.WellFormed) (a b : Lane) : (fadd c a b).toNat = (a.toNat + b.toNat) % c.P :=
  toNat_ofNat_mod h.pos h.lt_lane _

theorem fmul_toNat (h : c.WellFormed) (a b : Lane) : (fmul c a b).toNat = a.toNat * b.toNat % c.P :=
  toNat_ofNat_mod h.pos h.lt_lane _

theorem fexp_toNat (h : c.WellFormed) (b : Lane) (e : Nat) : (fexp c b e).toNat = b.toNat ^ e % c.P :=
  toNat_ofNat_mod h.pos h.lt_lane _

theorem fsum_lt (h : c.WellFormed) (f : Nat → Lane) : ∀ n, (fsum c f n).toNat < c.P
  | 0 => h.pos
  | n + 1 => by
    unfold fsum
    rw [fadd_toNat h]
    exact Nat.mod_lt _ h.pos

theorem fsum_toNat (h : c.WellFormed) (f : Nat → Lane) (n : Nat) :
    (fsum c f n).toNat = (∑ j ∈ Finset.range n, (f j).toNat) % c.P := by
  induction n with
  | zero => simp [fsum]
  | succ n ih =>
    unfold fsum
    rw [fadd_toNat h, ih, Finset.sum_range_succ, Nat.mod_add_mod]

theorem fadd_lt (h : c.WellFormed) (a b : Lane) : (fadd c a b).toNat < c.P := by
  rw [fadd_toNat h]
  exact Nat.mod_lt _ h.pos

theorem fexp_lt (h : c.WellFormed) (b : Lane) (e : Nat) : (fexp c b e).toNat < c.P := by
  rw [fexp_toNat h]
  exact Nat.mod_lt _ h.pos

/-! Over the field. -/

theorem fadd_cast (h : c.WellFormed) (a b : Lane) : ((fadd c a b).toNat : ZMod c.P) = a.toNat + b.toNat := by
  rw [fadd_toNat h, ZMod.natCast_mod, Nat.cast_add]

theorem fmul_cast (h : c.WellFormed) (a b : Lane) : ((fmul c a b).toNat : ZMod c.P) = a.toNat * b.toNat := by
  rw [fmul_toNat h, ZMod.natCast_mod, Nat.cast_mul]

theorem fexp_cast (h : c.WellFormed) (b : Lane) (e : Nat) : ((fexp c b e).toNat : ZMod c.P) = (b.toNat : ZMod c.P) ^ e := by
  rw [fexp_toNat h, ZMod.natCast_mod, Nat.cast_pow]

theorem fsum_cast (h : c.WellFormed) (f : Nat → Lane) (n : Nat) :
    ((fsum c f n).toNat : ZMod c.P) = ∑ j ∈ Finset.range n, ((f j).toNat : ZMod c.P) := by
  rw [fsum_toNat h, ZMod.natCast_mod, Nat.cast_sum]

/-- Canonical lanes with the same field element are equal. -/
theorem lane_ext_cast {a b : Lane} (ha : a.toNat < c.P) (hb : b.toNat < c.P)
    (h : (a.toNat : ZMod c.P) = b.toNat) : a = b := by
  rw [ZMod.natCast_eq_natCast_iff', Nat.mod_eq_of_lt ha, Nat.mod_eq_of_lt hb] at h
  exact BitVec.eq_of_toNat_eq h

theorem fieldLane_arkFlat (h : c.WellFormed) (t : List Lane) (s : Nat) (S : Lanes) {i : Nat} (hi : i < 6) :
    fieldLane c.P (arkFlat c t s S) i = fieldLane c.P S i + fieldSlice c.P t s i := by
  rw [fieldLane, laneAt_arkFlat, if_pos hi, fadd_cast h]
  rfl

theorem fieldLane_ark2d (h : c.WellFormed) (off col : Nat) (S : Lanes) {i : Nat} (hi : i < c.W) :
    fieldLane c.P (ark2d c off col S) i = fieldLane c.P S i + fieldColumn c off col i := by
  rw [fieldLane, laneAt_ark2d h.w_le, if_pos hi, fadd_cast h]
  rfl

theorem fieldLane_sboxAll (h : c.WellFormed) {w : Nat} (hw : w ≤ 16) (S : Lanes) {i : Nat} (hi : i < w) :
    fieldLane c.P (sboxAll c w S) i = fieldLane c.P S i ^ 3 := by
  rw [fieldLane, laneAt_sboxAll c hw, if_pos hi, sbox, fexp_cast h]
  rfl

theorem fieldLane_isboxAll (h : c.WellFormed) {w : Nat} (hw : w ≤ 16) (S : Lanes) {i : Nat} (hi : i < w) :
    fieldLane c.P (isboxAll c w S) i = fieldLane c.P S i ^ alphaInv c.P := by
  rw [fieldLane, laneAt_isboxAll c hw, if_pos hi, isbox, fexp_cast h]
  rfl

theorem fieldLane_mds (h : c.WellFormed) (m : List (List Lane)) {w : Nat} (hw : w ≤ 16) (S : Lanes) {i : Nat} (hi : i < w) :
    fieldLane c.P (mds c m w S) i = fieldMds m w (fieldLane c.P S) i := by
  rw [fieldLane, laneAt_mds c m hw, if_pos hi, fsum_cast h]
  exact Finset.sum_congr rfl fun j _ => fmul_cast h _ _

theorem mds_lt (h : c.WellFormed) (m : List (List Lane)) {w : Nat} (hw : w ≤ 16) (S : Lanes) {i : Nat} (hi : i < w) :
    (laneAt (mds c m w S) i).toNat < c.P := by
  rw [laneAt_mds c m hw, if_pos hi]
  exact fsum_lt h _ _

theorem fieldMds_congr {P w : Nat} {m : List (List Lane)} {x y : Nat → ZMod P} (h : ∀ j < w, x j = y j) (i : Nat) :
    fieldMds m w x i = fieldMds m w y i :=
  Finset.sum_congr rfl fun j hj => by rw [h j (Finset.mem_range.1 hj)]

end Sys2Proof.Machine
end

