-- ==== Sys2Proof/Laws/PerInstr.lean ====
section
/-! SUPPORT. One lemma per command, for the families LAWS.json lists: a command's word is well formed, decodes to the
command, and so do its bytes. -/

namespace Sys2Proof.Laws.RoundTrip

/-- The command's word is well formed and decodes back to it, as a word and as the four bytes of a write. -/
def Statement (i : Instr) : Prop :=
  i.wellFormed = true ∧ decode (encode i) = .ok i ∧ decodeBytes (encodeBytes i) = .ok i

theorem hspread : Statement .hspread := ⟨by decide, by rfl, by rfl⟩
theorem hrescue : Statement .hrescue := ⟨by decide, by rfl, by rfl⟩
theorem hfeistel : Statement .hfeistel := ⟨by decide, by rfl, by rfl⟩
theorem sdigest : Statement .sdigest := ⟨by decide, by rfl, by rfl⟩
theorem invmds : Statement .invmds := ⟨by decide, by rfl, by rfl⟩

end Sys2Proof.Laws.RoundTrip
end

