-- ==== Sys2Proof/Machine/Program.lean ====
section
/-! DEFINITION. The host program notation (30_encoding R90, R91), each line as the events it stands for. -/

namespace Sys2Proof.Machine

/-- `WR off, v`. -/
def wr (off : Nat) (v : Word) : List Event := [.access { off := off, bytes := 4, op := .write v }]

/-- `RD off`. -/
def rd (off : Nat) : List Event := [.access { off := off, bytes := 4, op := .read }]

/-- `WAIT`, for `n` engine steps (any number: R187). -/
def waitFor (n : Nat) : List Event := List.replicate n .wait

/-- `CMD m`. -/
def cmd (i : Instr) : List Event := wr 0x000 (encode i)

/-- `SETLEN n`. -/
def setLen (n : Word) : List Event := wr 0x008 n

/-- `WRLANE i, v`. -/
def wrLane (i : Nat) (v : Lane) : List Event :=
  wr (0x100 + 16 * i) (v.extractLsb' 0 32) ++ wr (0x104 + 16 * i) (v.extractLsb' 32 32)
    ++ wr (0x108 + 16 * i) (v.extractLsb' 64 32) ++ wr (0x10C + 16 * i) (v.extractLsb' 96 32)

/-- `WRBYTES b0, b1, ..` from byte `k` on, missing bytes 0. -/
def wrBytesFrom : Nat → List Byte → List Event
  | _, [] => []
  | k, b0 :: b1 :: b2 :: b3 :: bs => wr (0x100 + k) (wordOfBytes b0 b1 b2 b3) ++ wrBytesFrom (k + 4) bs
  | k, b0 :: b1 :: [b2] => wr (0x100 + k) (wordOfBytes b0 b1 b2 0#8)
  | k, b0 :: [b1] => wr (0x100 + k) (wordOfBytes b0 b1 0#8 0#8)
  | k, [b0] => wr (0x100 + k) (wordOfBytes b0 0#8 0#8 0#8)

/-- `WRBYTES b0, b1, ..`. -/
def wrBytes (bs : List Byte) : List Event := wrBytesFrom 0 bs

/-- `POLL`, when it takes `n` reads of STATUS (DESIGN CHOICE, log 16). -/
def poll (n : Nat) : List Event := (List.replicate n (rd 0x004)).flatten

/-- `RDLANE base, i`. -/
def rdLane (base i : Nat) : List Event :=
  rd (base + 16 * i) ++ rd (base + 16 * i + 4) ++ rd (base + 16 * i + 8) ++ rd (base + 16 * i + 12)

end Sys2Proof.Machine
end

