-- ==== Sys2Proof/Tests/Toy.lean ====
section
/-! SUPPORT. The toy configuration of 95_test_vectors, Part 2: every parameter is the spec's own test choice. -/

namespace Sys2Proof.Machine.Toy

/-- A row of a matrix from numbers. -/
def row (l : List Nat) : List Lane := l.map (BitVec.ofNat 128)

/-- The toy configuration, but for its table `T_S`. -/
def toyWith (t : List Lane) : Params where
  P := 101
  mdsS := (List.range 6).map fun i => row ((List.range 6).map fun j => (i + 2) ^ j % 101)
  tS := t
  nRescue := 2
  mdsR := [row [2, 3, 1, 1, 5, 7], row [7, 2, 3, 1, 1, 5], row [5, 7, 2, 3, 1, 1], row [1, 5, 7, 2, 3, 1],
    row [1, 1, 5, 7, 2, 3], row [3, 1, 1, 5, 7, 2]]
  tR := row ((List.range 30).map fun k => (5 * k + 2) % 101)
  nFeistel := 4
  rcF := row [3, 10, 17, 24]
  W := 4
  R := 2
  D := 2
  N := 3
  C := 2
  mdsW := [row [1, 1, 1, 1], row [1, 2, 4, 8], row [1, 3, 9, 27], row [1, 4, 16, 64]]
  mdsWInv := [row [4, 95, 4, 100], row [63, 60, 94, 86], row [52, 97, 54, 100], row [84, 51, 50, 17]]
  arkW := (List.range 8).map fun r => row [2 * r + 1, 2 * r + 2]
  base := 0x40000000
  cycles := 1

/-- `T_S`. -/
def tableS : List Lane := row ((List.range 546).map fun k => (3 * k + 1) % 101)

/-- The toy configuration. -/
def toy : Params := toyWith tableS

/-- A register file whose low lanes are the given numbers. -/
def lanesFrom (l : List Nat) : Lanes := lanesOf fun i => BitVec.ofNat 128 (l.getD i 0)

/-- The low `n` lanes as numbers. -/
def lanesTo (n : Nat) (S : Lanes) : List Nat := (List.range n).map fun i => (laneAt S i).toNat

/-- Reset, with the given events to come. -/
def start (es : List Event) : State := { State.reset with pending := es }

/-- `k` steps of the toy instance from a state. -/
def runToy (k : Nat) (s : State) : Host.Outcome State Fault Refusal :=
  Host.Core.run { State := State, Fault := Fault, Refusal := Refusal, step := stepWith toy, reset := State.reset } k s

end Sys2Proof.Machine.Toy
end

