-- ==== Sys2Proof/Tests/Slice0.lean ====
section
/-! SUPPORT. Tests: ill-formed terms refused, words written out from the spec's encodings, single steps against the vectors of
95_test_vectors under its toy configuration, and for each statement with hypotheses a witness that meets them. -/

namespace Sys2Proof.Tests

open Sys2Proof.Machine Sys2Proof.Machine.Toy

/-! ## Ill-formed terms are refused -/

/-- RSV is not 0 (R85). -/
theorem test_reserved_bits_refused : ({ rsv := 1#28, op := 1#4 } : Cmd32).wellFormed = false := by decide

/-- OP below and above the five commands (R85). -/
theorem test_reserved_op_refused :
    ({ rsv := 0#28, op := 0#4 } : Cmd32).wellFormed = false ∧ ({ rsv := 0#28, op := 6#4 } : Cmd32).wellFormed = false := by
  decide

/-- An 8-bit access and an unaligned one (R54). -/
theorem test_access_shape_refused :
    ({ off := 0x100, bytes := 1, op := .read } : Access).wellFormed = false ∧
    ({ off := 0x102, bytes := 4, op := .read } : Access).wellFormed = false := by decide

/-- A run of bytes that is not one word is no command (R54, R80). -/
theorem test_bytes_must_be_one_word :
    decodeBytes [0x01#8, 0#8] = .error .notOneWord ∧ decodeBytes [0x01#8, 0#8, 0#8, 0#8, 0#8] = .error .notOneWord := by
  decide

/-! ## Words written out from the encoding (R81, R84): RSV, then OP -/

theorem test_decode_hspread : decode (0b0000000000000000000000000000#28 ++ 0b0001#4) = .ok .hspread := by decide
theorem test_decode_hrescue : decode (0b0000000000000000000000000000#28 ++ 0b0010#4) = .ok .hrescue := by decide
theorem test_decode_hfeistel : decode (0b0000000000000000000000000000#28 ++ 0b0011#4) = .ok .hfeistel := by decide
theorem test_decode_sdigest : decode (0b0000000000000000000000000000#28 ++ 0b0100#4) = .ok .sdigest := by decide
theorem test_decode_invmds : decode (0b0000000000000000000000000000#28 ++ 0b0101#4) = .ok .invmds := by decide

/-- PR1's bytes of a write of HRESCUE: the low byte at the lowest address (R56). -/
theorem test_decode_bytes : decodeBytes [0x02#8, 0x00#8, 0x00#8, 0x00#8] = .ok .hrescue := by decide

/-- Words R85 makes illegal. -/
theorem test_decode_illegal :
    decode 0x00000013#32 = .error .reservedBits ∧ decode 0x00000006#32 = .error .reservedOp ∧
    decodeTableWord 32 0 = none ∧ decodeTableWord 32 0x14 = none := by decide

/-! ## Single steps of the toy instance -/

/-- The low `n` lanes and ROUND of a next state. -/
def seen (n : Nat) : Host.Outcome State Fault Refusal → Option (List Nat × Nat)
  | .next s => some (lanesTo n s.lanes, s.round.toNat)
  | .fault _ => none
  | .refused _ => none

/-- ERRCODE of a next state. -/
def code : Host.Outcome State Fault Refusal → Option Nat
  | .next s => some s.errcode.toNat
  | .fault _ => none
  | .refused _ => none

/-- BUSY, DONE, ERRCODE and OUTBUF of a next state. -/
def result : Host.Outcome State Fault Refusal → Option (Bool × Bool × Nat × Memory)
  | .next s => some (s.busy, s.done, s.errcode.toNat, s.outbuf)
  | .fault _ => none
  | .refused _ => none

/-- A command running at a round, on the given lanes. -/
def running (i : Instr) (r : Nat) (l : List Nat) : State :=
  { State.reset with busy := true, lastop := i.op, round := BitVec.ofNat 32 r, lanes := lanesFrom l }

/-- An idle block with an input. -/
def idle (n : Nat) (buf : Memory) : State := { State.reset with inlen := BitVec.ofNat 32 n, inbuf := buf }

/-- The common input of 95_test_vectors V1 to V3: the values 1, 2, 3, 4. -/
def katInput : Memory := [(0, 1#8), (16, 2#8), (32, 3#8), (48, 4#8)]

/-- T21, a full round. -/
theorem test_hspread_full_round :
    seen 6 (stepWith toy (running .hspread 0 [1, 2, 3, 4, 0, 0])) = some ([9, 84, 22, 31, 36, 36], 1) := by decide +kernel

/-- T22, T23, the first partial round. -/
theorem test_hspread_partial_round :
    seen 6 (stepWith toy (running .hspread 4 [92, 4, 95, 73, 11, 11])) = some ([6, 70, 81, 3, 82, 88], 5) := by decide +kernel

/-- T29, the prologue. -/
theorem test_hrescue_prologue :
    seen 6 (execWith toy .hrescue (idle 64 katInput)) = some ([3, 9, 15, 21, 22, 27], 0) := by decide +kernel

/-- T30, a double round. -/
theorem test_hrescue_round :
    seen 6 (stepWith toy (running .hrescue 0 [3, 9, 15, 21, 22, 27])) = some ([33, 13, 25, 80, 10, 81], 1) := by decide +kernel

/-- T36, byte 16 is the low byte of lane 1. -/
theorem test_hfeistel_load :
    seen 6 (execWith toy .hfeistel (idle 17 [(0, 5#8), (16, 7#8), (17, 9#8)])) = some ([5, 7, 0, 0, 0, 0], 0) := by decide +kernel

/-- T20, T34, lanes move down. -/
theorem test_hfeistel_round :
    seen 6 (stepWith toy (running .hfeistel 0 [1, 2, 3, 4, 0, 0])) = some ([66, 67, 68, 64, 64, 1], 1) := by decide +kernel

/-- T40, a round. -/
theorem test_sdigest_round :
    seen 4 (stepWith toy (running .sdigest 0 [0, 0, 2, 1])) = some ([17, 49, 82, 15], 1) := by decide +kernel

/-- T40, the completion. -/
theorem test_sdigest_completion :
    seen 4 (stepWith toy (running .sdigest 3 [24, 49, 16, 11])) = some ([11, 16, 49, 24], 3) ∧
    result (stepWith toy (running .sdigest 3 [24, 49, 16, 11])) = some (false, true, 0, [(0, 11#8), (16, 16#8)]) := by decide +kernel

/-- T46, the round. -/
theorem test_invmds_round :
    seen 4 (stepWith toy (running .invmds 0 [5, 0, 0, 0])) = some ([20, 12, 58, 16], 1) := by decide +kernel

/-- T45, the completion. -/
theorem test_invmds_completion :
    result (stepWith toy (running .invmds 1 [0, 1, 0, 0])) = some (false, true, 0, [(16, 1#8)]) := by decide +kernel

/-- T28, T44: a lane equal to `P`; one element too many. -/
theorem test_rejections :
    code (execWith toy .hspread (idle 1 [(0, 101#8)])) = some 4 ∧ code (execWith toy .sdigest (idle 3 [])) = some 3 := by decide +kernel

/-! ## The toy configuration meets R6's constraints -/

theorem canonicalTable_row {P : Nat} {l : List Nat} (h : ∀ n ∈ l, n < P) : canonicalTable P (row l) := fun v hv => by
  obtain ⟨n, hn, rfl⟩ := List.mem_map.1 hv
  exact lt_of_le_of_lt (by rw [BitVec.toNat_ofNat]; exact Nat.mod_le _ _) (h n hn)

/-- A table of rows of `cols` numbers, each below `P`. -/
theorem matrixShape_rows {P rows cols : Nat} {m : List (List Lane)} (hrows : m.length = rows)
    (h : (m.all fun r => r.length == cols && r.all fun v => v.toNat.blt P) = true) : MatrixShape P rows cols m := by
  simp only [List.all_eq_true, Bool.and_eq_true, beq_iff_eq, Nat.blt_eq] at h
  exact ⟨hrows, fun r hr => (h r hr).1, fun r hr => (h r hr).2⟩

/-- A table whose entries are taken mod `P`. -/
theorem canonicalTable_mod {P : Nat} (hP : 0 < P) (f : Nat → Nat) (n : Nat) :
    canonicalTable P (row ((List.range n).map fun k => f k % P)) :=
  canonicalTable_row fun v hv => by
    obtain ⟨k, _, rfl⟩ := List.mem_map.1 hv
    exact Nat.mod_lt _ hP

theorem tableS_canonical : canonicalTable 101 tableS := by
  unfold tableS
  exact canonicalTable_mod (by decide) (fun k => 3 * k + 1) 546

theorem tableS_length : tableS.length = 546 := by
  unfold tableS row
  rw [List.length_map, List.length_map, List.length_range]

theorem toyWith_wellFormed {t : List Lane} (hlen : t.length = 546) (ht : canonicalTable 101 t) :
    (toyWith t).WellFormed where
  prime := by norm_num [toyWith]
  lt_lane := by dsimp only [toyWith]; decide
  mod_three := by dsimp only [toyWith]
  three_lt := by dsimp only [toyWith]; decide
  mdsS := matrixShape_rows (by dsimp only [toyWith]; decide +kernel) (by dsimp only [toyWith]; decide +kernel)
  tS_len := hlen.ge
  tS := ht
  nRescue := by dsimp only [toyWith]; decide
  mdsR := matrixShape_rows (by dsimp only [toyWith]; decide +kernel) (by dsimp only [toyWith]; decide +kernel)
  tR_len := by simp [toyWith, row]
  tR := canonicalTable_mod (by dsimp only [toyWith]; decide) (fun k => 5 * k + 2) 30
  nFeistel := by dsimp only [toyWith]; decide
  rcF_len := by dsimp only [toyWith]; decide
  rcF := canonicalTable_row (by dsimp only [toyWith]; decide)
  w_pos := by dsimp only [toyWith]; decide
  w_le := by dsimp only [toyWith]; decide
  r_pos := by dsimp only [toyWith]; decide
  r_le := by dsimp only [toyWith]; decide
  d_pos := by dsimp only [toyWith]; decide
  d_le := by dsimp only [toyWith]; decide
  n_le := by dsimp only [toyWith]; decide
  c_pos := by dsimp only [toyWith]; decide
  c_le := by dsimp only [toyWith]; decide
  mdsW := matrixShape_rows (by dsimp only [toyWith]; decide +kernel) (by dsimp only [toyWith]; decide +kernel)
  mdsWInv := matrixShape_rows (by dsimp only [toyWith]; decide +kernel) (by dsimp only [toyWith]; decide +kernel)
  inverse := by dsimp only [inverseLaw, toyWith]; decide +kernel
  arkW := matrixShape_rows (by dsimp only [toyWith]; decide +kernel) (by dsimp only [toyWith]; decide +kernel)
  cycles := by dsimp only [toyWith]; decide

theorem toy_wellFormed : toy.WellFormed := toyWith_wellFormed tableS_length tableS_canonical

/-! ## Witnesses: for each statement with hypotheses, a state and operands that meet them

Statements over every parameter set are witnessed by the toy configuration, those over `Config.params`, of which only R6 is
known, by states that need no more. -/

/-- A write of `v` to CMD, a write to an offset, a read, as the host's next access. -/
def writes (off : Nat) (v : Word) : Event := .access { off := off, bytes := 4, op := .write v }
def reads (off : Nat) : Event := .access { off := off, bytes := 4, op := .read }

theorem loopLane_nil (l n : Nat) : loopLane [] l n = 0 := by
  induction n with
  | zero => rfl
  | succ n ih => rw [loopLane, ih, byteAt_nil, BitVec.toNat_zero, Nat.zero_mul, ite_self]

theorem elementValue_nil (k : Nat) : elementValue [] k = 0 := Finset.sum_eq_zero fun _ _ => by
  rw [byteAt_nil, BitVec.toNat_zero, Nat.zero_mul]

/-- Every command is acceptable to an idle block whose input is zeros, at every legal length, 0 and the limit among them. -/
theorem zeros_acceptable (i : Instr) (n : Nat) (h : n ≤ limitOf Config.params i) :
    Acceptable Config.params i (idle n []) := by
  have wf := Config.params_wellFormed
  have hW : Config.params.W ≤ 16 := wf.w_le
  have hR := wf.r_le
  have hn : n < 2 ^ 32 := by cases i <;> simp only [limitOf] at h <;> omega
  refine ⟨rfl, ?_, ?_⟩
  · simp only [idle, BitVec.toNat_ofNat, Nat.mod_eq_of_lt hn, h]
  · cases i
    · exact fun l _ => (loopLane_nil l _).trans_lt wf.pos
    · exact fun l _ => (loopLane_nil l _).trans_lt wf.pos
    · exact fun l _ => (loopLane_nil l _).trans_lt wf.pos
    · exact fun k _ => (elementValue_nil k).trans_lt wf.pos
    · exact fun k _ => (elementValue_nil k).trans_lt wf.pos

/-- The common input of V1 to V3, at the longest fixed-width length, is acceptable. -/
theorem kat_acceptable : Acceptable Config.params .hspread (idle 64 katInput) :=
  ⟨rfl, by decide, fun l hl => lt_of_le_of_lt
    ((by decide : ∀ l < 6, loopLane katInput l 64 ≤ 4) l hl) (lt_trans (by decide) Config.params_admissible.kat_lt)⟩

theorem witness_HspreadAcceptedLoadsItsInput :
    Acceptable Config.params .hspread (idle 64 katInput) ∧ Acceptable Config.params .hspread (idle 0 []) :=
  ⟨kat_acceptable, zeros_acceptable .hspread 0 (Nat.zero_le _)⟩

theorem witness_HrescueAcceptedLoadsItsInputAndAddsConstants :
    Acceptable Config.params .hrescue (idle 64 []) ∧ Acceptable Config.params .hrescue (idle 0 []) :=
  ⟨zeros_acceptable .hrescue 64 (le_refl _), zeros_acceptable .hrescue 0 (Nat.zero_le _)⟩

theorem witness_HfeistelAcceptedLoadsItsInput :
    Acceptable Config.params .hfeistel (idle 64 []) ∧ Acceptable Config.params .hfeistel (idle 0 []) :=
  ⟨zeros_acceptable .hfeistel 64 (le_refl _), zeros_acceptable .hfeistel 0 (Nat.zero_le _)⟩

theorem witness_SdigestAcceptedLoadsItsInputReversed :
    Acceptable Config.params .sdigest (idle Config.params.R []) ∧ Acceptable Config.params .sdigest (idle 0 []) :=
  ⟨zeros_acceptable .sdigest _ (le_refl _), zeros_acceptable .sdigest 0 (Nat.zero_le _)⟩

theorem witness_InvmdsAcceptedLoadsItsInput :
    Acceptable Config.params .invmds (idle Config.params.W []) ∧ Acceptable Config.params .invmds (idle 0 []) :=
  ⟨zeros_acceptable .invmds _ (le_refl _), zeros_acceptable .invmds 0 (Nat.zero_le _)⟩

/-! Reset. -/

theorem witness_ResetInputInitialisesTheBlock :
    (start [.assertReset]).pending = (if true then Event.assertReset else Event.releaseReset) :: [] ∧
    (start [.releaseReset]).pending = (if false then Event.assertReset else Event.releaseReset) :: [] := ⟨rfl, rfl⟩

theorem witness_AssertedResetHoldsTheBlock :
    HeldAtReset (State.reset.initialised true) ∧ (State.reset.initialised true).resetIn = true ∧
    step (State.reset.initialised true) = .next (State.reset.initialised true) := ⟨fun _ => rfl, rfl, rfl⟩

theorem witness_AccessDuringResetIsRefused :
    ({ start [reads 0x004] with resetIn := true } : State).pending = [reads 0x004] ∧
    ({ start [reads 0x004] with resetIn := true } : State).resetIn = true ∧ 0x004 < 0x400 := ⟨rfl, rfl, by decide⟩

/-! Presenting a word. -/

theorem witness_StepRunsTheDecodedCommand :
    NextAccess { off := 0x000, bytes := 4, op := .write 0x00000001#32 } [] (start [writes 0x000 0x00000001#32]) ∧
    decode 0x00000001#32 = .ok .hspread := ⟨⟨rfl, rfl, by decide⟩, by decide⟩

/-- RSV = 1 with a legal OP; OP = 0; OP = 6 and OP = 15; and the two legal words at the ends. -/
theorem witness_IllegalWordIsRejected :
    (∀ v, NextAccess { off := 0x000, bytes := 4, op := .write v } [] (start [writes 0x000 v])) ∧
    (0x00000011#32).toNat / 16 ≠ 0 ∧ (0x00000000#32).toNat % 16 = 0 ∧ 6 ≤ (0x00000006#32).toNat % 16 ∧
    6 ≤ (0x0000000F#32).toNat % 16 ∧
    ¬ ((1#32).toNat / 16 ≠ 0 ∨ (1#32).toNat % 16 = 0 ∨ 6 ≤ (1#32).toNat % 16) ∧
    ¬ ((5#32).toNat / 16 ≠ 0 ∨ (5#32).toNat % 16 = 0 ∨ 6 ≤ (5#32).toNat % 16) :=
  ⟨fun _ => ⟨rfl, rfl, Nat.zero_lt_succ _⟩, by decide, by decide, by decide, by decide, by decide, by decide⟩

/-- BUSY; one byte or element too many. -/
theorem witness_CommandIsRejectedWithItsFirstError (i : Instr) :
    (running i 0 []).busy = true ∧ (idle (limitOf Config.params i + 1) []).busy = false ∧
    limitOf Config.params i < (idle (limitOf Config.params i + 1) []).inlen.toNat := by
  have hW : Config.params.W ≤ 16 := Config.params_wellFormed.w_le
  have hR := Config.params_wellFormed.r_le
  have hn : limitOf Config.params i + 1 < 2 ^ 32 := by cases i <;> simp only [limitOf] <;> omega
  refine ⟨rfl, rfl, ?_⟩
  simp only [idle, BitVec.toNat_ofNat, Nat.mod_eq_of_lt hn, Nat.lt_succ_self]

/-- Sixteen bytes 0xFF. -/
def ones : Memory := (List.range 16).map fun k => (k, 0xFF#8)

/-- A lane or element of sixteen bytes 0xFF is above every modulus below `2^128`. -/
theorem witness_CommandIsRejectedWithItsFirstError_noncanonical :
    (∀ i : Instr, i = .hspread ∨ i = .hrescue ∨ i = .hfeistel → (idle 16 ones).busy = false ∧
      (idle 16 ones).inlen.toNat ≤ limitOf Config.params i ∧ ¬ InputCanonical Config.params i (idle 16 ones)) ∧
    (∀ i : Instr, i = .sdigest ∨ i = .invmds → (idle 1 ones).busy = false ∧
      (idle 1 ones).inlen.toNat ≤ limitOf Config.params i ∧ ¬ InputCanonical Config.params i (idle 1 ones)) := by
  have hP : Config.params.P ≤ 2 ^ 128 - 1 := Nat.le_sub_one_of_lt Config.params_wellFormed.lt_lane
  have hl : loopLane ones 0 16 = 2 ^ 128 - 1 := by decide
  have he : elementValue ones 0 = 2 ^ 128 - 1 := by decide
  refine ⟨fun i hi => ?_, fun i hi => ?_⟩
  · rcases hi with rfl | rfl | rfl
    all_goals exact ⟨rfl, by decide, fun h => absurd (h 0 (by decide)) (not_lt.2 (hP.trans hl.ge))⟩
  · rcases hi with rfl | rfl
    · exact ⟨rfl, Config.params_wellFormed.r_pos, fun h => absurd (h 0 (by decide)) (not_lt.2 (hP.trans he.ge))⟩
    · exact ⟨rfl, Config.params_wellFormed.w_pos, fun h => absurd (h 0 (by decide)) (not_lt.2 (hP.trans he.ge))⟩

theorem witness_LoadFixedLaysTheBytesOverTheLanes :
    laneByteValue (laneAt (loadFixed [(95, 7#8)] 96) (95 / 16)) (95 % 16) = 7 ∧
    laneByteValue (laneAt (loadFixed [(95, 7#8)] 95) (95 / 16)) (95 % 16) = 0 := by decide +kernel

/-! Engine steps. -/

/-- Every command has a round step and a completion step under the toy configuration. -/
theorem running_enabled (i : Instr) :
    RoundEnabled toy i (running i 0 [1, 2, 3, 4, 0, 0]) ∧ CompletionEnabled toy i (running i (roundCount toy i) [1, 2]) := by
  cases i <;> exact ⟨⟨rfl, rfl, rfl, rfl, by decide⟩, ⟨rfl, rfl, rfl, rfl, by decide⟩⟩

theorem witness_SpreadRoundFollowsItsRule :
    toy.WellFormed ∧ RoundEnabled toy .hspread (running .hspread 0 [1, 2, 3, 4, 0, 0]) ∧
    RoundEnabled toy .hspread (running .hspread 90 [1, 2]) :=
  ⟨toy_wellFormed, (running_enabled .hspread).1, ⟨rfl, rfl, rfl, rfl, by decide⟩⟩

theorem witness_RescueRoundFollowsItsRule :
    toy.WellFormed ∧ RoundEnabled toy .hrescue (running .hrescue 0 [1, 2, 3, 4, 0, 0]) :=
  ⟨toy_wellFormed, (running_enabled .hrescue).1⟩

theorem witness_FeistelRoundFollowsItsRule :
    toy.WellFormed ∧ RoundEnabled toy .hfeistel (running .hfeistel 0 [1, 2, 3, 4, 0, 0]) ∧
    LanesCanonical toy (running .hfeistel 0 [1, 2, 3, 4, 0, 0]) :=
  ⟨toy_wellFormed, (running_enabled .hfeistel).1, by unfold LanesCanonical; decide⟩

theorem witness_SpongeRoundFollowsItsRule :
    toy.WellFormed ∧ RoundEnabled toy .sdigest (running .sdigest 0 [1, 2, 3, 4, 0, 0]) :=
  ⟨toy_wellFormed, (running_enabled .sdigest).1⟩

theorem witness_InvmdsRoundFollowsItsRule :
    toy.WellFormed ∧ RoundEnabled toy .invmds (running .invmds 0 [1, 2, 3, 4, 0, 0]) :=
  ⟨toy_wellFormed, (running_enabled .invmds).1⟩

theorem witness_FixedWidthCompletionWritesTwoLanes :
    toy.WellFormed ∧ CompletionEnabled toy .hspread (running .hspread 91 [1, 2]) ∧
    CompletionEnabled toy .hrescue (running .hrescue 2 [1, 2]) ∧
    CompletionEnabled toy .hfeistel (running .hfeistel 4 [1, 2]) :=
  ⟨toy_wellFormed, (running_enabled .hspread).2, (running_enabled .hrescue).2, (running_enabled .hfeistel).2⟩

theorem witness_SdigestCompletionReversesAndWritesTheDigest :
    toy.WellFormed ∧ CompletionEnabled toy .sdigest (running .sdigest 3 [1, 2]) :=
  ⟨toy_wellFormed, (running_enabled .sdigest).2⟩

theorem witness_InvmdsCompletionWritesAllLanes :
    toy.WellFormed ∧ CompletionEnabled toy .invmds (running .invmds 1 [1, 2]) :=
  ⟨toy_wellFormed, (running_enabled .invmds).2⟩

/-! Whole commands. -/

theorem witness_AcceptedCommandRunsItsPseudocode :
    Acceptable Config.params .hspread (idle 64 katInput) ∧
    (∀ i, Acceptable Config.params i (idle (limitOf Config.params i) [])) ∧
    (idle 64 katInput).pending = [] ∧ (idle 64 katInput).resetIn = false :=
  ⟨kat_acceptable, fun i => zeros_acceptable i _ (le_refl _), rfl, rfl⟩

/-- After no engine step and after all `K`. -/
theorem witness_CommandStaysBusyUntilItsLastStep (i : Instr) :
    Acceptable Config.params i (idle 0 []) ∧ (idle 0 []).pending = [] ∧ (idle 0 []).resetIn = false ∧
    0 ≤ roundCount Config.params i ∧ roundCount Config.params i ≤ roundCount Config.params i :=
  ⟨zeros_acceptable i 0 (Nat.zero_le _), rfl, rfl, Nat.zero_le _, le_refl _⟩

/-! The field and the layers: the toy modulus is 101, and the instance's is above `2^127`. -/

theorem witness_FaddIsExactModularAddition :
    toy.WellFormed ∧ (100#128).toNat < toy.P ∧ (1#128).toNat < toy.P ∧ (100#128).toNat = toy.P - 1 :=
  ⟨toy_wellFormed, by decide, by decide, by decide⟩

theorem witness_FmulIsExactModularMultiplication :
    toy.WellFormed ∧ (100#128).toNat < toy.P ∧ (37#128).toNat < toy.P ∧ (100#128).toNat = toy.P - 1 :=
  ⟨toy_wellFormed, by decide, by decide, by decide⟩

theorem witness_FexpIsTheExactPower :
    toy.WellFormed ∧ (99#128).toNat < toy.P ∧ 1 ≤ 67 ∧ 8 < toy.P := ⟨toy_wellFormed, by decide, by decide, by decide⟩

theorem witness_SboxIsTheCube :
    toy.WellFormed ∧ (50#128).toNat < toy.P ∧ (100#128).toNat = toy.P - 1 ∧ 8 < toy.P ∧
    Config.params.WellFormed ∧ 125 < Config.params.P :=
  ⟨toy_wellFormed, by decide, by decide, by decide, Config.params_wellFormed,
    lt_trans (by decide) Config.params_admissible.kat_lt⟩

/-- T12: the exponent of the toy modulus meets the left side, and no other does. -/
theorem witness_AlphaInvIsTheInverseOfThree :
    toy.WellFormed ∧ (1 ≤ 67 ∧ 67 < toy.P - 1 ∧ 3 * 67 % (toy.P - 1) = 1) ∧ alphaInv toy.P = 67 :=
  ⟨toy_wellFormed, by decide, by decide⟩

theorem witness_SboxAndIsboxAreInverse :
    toy.WellFormed ∧ (24#128).toNat < toy.P ∧ (100#128).toNat = toy.P - 1 ∧ 8 < toy.P :=
  ⟨toy_wellFormed, by decide, by decide, by decide⟩

theorem witness_SummationOrderIsIrrelevant :
    toy.WellFormed ∧ [100#128, 3#128].Perm [3#128, 100#128] ∧ ∀ x ∈ [100#128, 3#128], x.toNat < toy.P :=
  ⟨toy_wellFormed, List.Perm.swap _ _ _, fun x hx => by
    rcases List.mem_cons.1 hx with rfl | hx
    · decide
    · rw [List.mem_singleton.1 hx]; decide⟩

/-- T45's lanes. -/
theorem witness_MdsInverseUndoesMds : toy.WellFormed ∧ ∀ i < toy.W, (laneAt (lanesFrom [1, 2, 3, 4]) i).toNat < toy.P :=
  ⟨toy_wellFormed, by decide⟩

/-- T19, and the widths at the ends of the range. -/
theorem witness_ReversalTwiceIsTheIdentity :
    lanesTo 4 (reverseLanes 4 (lanesFrom [1, 2, 0, 0])) = [0, 0, 2, 1] ∧ 0 ≤ 16 ∧ 16 ≤ 16 := by decide

theorem witness_InverseSboxLayerUndoesTheForwardOne :
    toy.WellFormed ∧ 16 ≤ 16 ∧ ∀ i < 16, (laneAt (lanesFrom [64, 80, 73, 54, 96, 99]) i).toNat < toy.P :=
  ⟨toy_wellFormed, le_refl _, by decide⟩

/-- The toy configuration with one more entry in every table, and one more row in every matrix. -/
def longer : Params :=
  { toy with
    tS := toy.tS ++ row [7], tR := toy.tR ++ row [7], rcF := toy.rcF ++ row [7], arkW := toy.arkW ++ [row [7, 7]]
    mdsS := toy.mdsS ++ [row [7]], mdsR := toy.mdsR ++ [row [7]], mdsW := toy.mdsW ++ [row [7]]
    mdsWInv := toy.mdsWInv ++ [row [7]] }

theorem romAt_append {t u : List Lane} {k : Nat} (h : k < t.length) : romAt t k = romAt (t ++ u) k :=
  (List.getD_append t u 0#128 k h).symm

theorem matAt_append {m u : List (List Lane)} {i : Nat} (h : i < m.length) (j : Nat) : matAt m i j = matAt (m ++ u) i j := by
  rw [matAt, matAt, List.getD_append m u [] i h]

/-- Two different parameter sets that agree on the declared entries, and the last round of each command. -/
theorem witness_RomAddressesAreInBounds :
    toy.WellFormed ∧ 1 ≤ toy.C ∧ RomsAgree toy longer ∧ toy.rcF ≠ longer.rcF ∧ 90 < roundCount toy .hspread ∧
    1 < roundCount toy .hrescue ∧ 3 < roundCount toy .hfeistel ∧ 2 < roundCount toy .sdigest ∧
    0 < roundCount toy .invmds := by
  have wf := toy_wellFormed
  refine ⟨wf, by decide, ?_, by decide, by decide, by decide, by decide, by decide, by decide⟩
  exact
    { P := rfl, W := rfl, C := rfl, nRescue := rfl, nFeistel := rfl, N := rfl
      tS := fun k hk => romAt_append (hk.trans_le wf.tS_len)
      tR := fun k hk => romAt_append (hk.trans_le wf.tR_len)
      rcF := fun k hk => romAt_append (hk.trans_le wf.rcF_len.ge)
      arkW := fun i hi j _ => matAt_append (hi.trans_le wf.arkW.nrows.ge) j
      mdsS := fun i hi j _ => matAt_append (hi.trans_le wf.mdsS.nrows.ge) j
      mdsR := fun i hi j _ => matAt_append (hi.trans_le wf.mdsR.nrows.ge) j
      mdsW := fun i hi j _ => matAt_append (hi.trans_le wf.mdsW.nrows.ge) j
      mdsWInv := fun i hi j _ => matAt_append (hi.trans_le wf.mdsWInv.nrows.ge) j }

/-! The host window. -/

/-- The first and last word of each region, while idle and while a command runs. -/
theorem witness_ReadsFollowTheRegisterMap (s : State) (hs : s.resetIn = false) :
    ∀ off ∈ [0x000, 0x004, 0x008, 0x00C, 0x010, 0x014, 0x018, 0x01C, 0x020, 0x0FC, 0x100, 0x1FC, 0x200, 0x2FC, 0x300, 0x3FC],
      off % 4 = 0 ∧ NextAccess { off := off, bytes := 4, op := .read } [] { s with pending := [reads off] } := fun off h => by
  have hoff := (by decide : ∀ off ∈ [0x000, 0x004, 0x008, 0x00C, 0x010, 0x014, 0x018, 0x01C, 0x020, 0x0FC, 0x100, 0x1FC,
    0x200, 0x2FC, 0x300, 0x3FC], off % 4 = 0 ∧ off < 0x400) off h
  exact ⟨hoff.1, rfl, hs, hoff.2⟩

/-- CMD, INLEN, the first and last word of INBUF, and words beside them that are not writable. -/
theorem witness_WritesFollowTheRegisterMap (v : Word) :
    BuffersCanonical (idle 64 katInput) ∧ BuffersCanonical (running .hspread 0 []) ∧
    ∀ off ∈ [0x000, 0x004, 0x008, 0x00C, 0x0FC, 0x100, 0x1FC, 0x200, 0x3FC],
      off % 4 = 0 ∧ NextAccess { off := off, bytes := 4, op := .write v } [] { idle 64 katInput with pending := [writes off v] } ∧
      NextAccess { off := off, bytes := 4, op := .write v } [] { running .hspread 0 [] with pending := [writes off v] } := by
  refine ⟨⟨by decide, rfl⟩, ⟨rfl, rfl⟩, fun off h => ?_⟩
  have hoff := (by decide : ∀ off ∈ [0x000, 0x004, 0x008, 0x00C, 0x0FC, 0x100, 0x1FC, 0x200, 0x3FC],
    off % 4 = 0 ∧ off < 0x400) off h
  exact ⟨hoff.1, ⟨rfl, rfl, hoff.2⟩, ⟨rfl, rfl, hoff.2⟩⟩

/-- A byte access, an unaligned one, reads of CMD and of both ends of the reserved offsets, writes to both ends of what is
not writable. -/
theorem witness_BusErrorsChangeNothing (v : Word) :
    (∀ a : Access, a.off < 0x400 → NextAccess a [] (start [.access a])) ∧
    BusErrorAccess { off := 0x100, bytes := 1, op := .read } ∧ BusErrorAccess { off := 0x102, bytes := 4, op := .write v } ∧
    BusErrorAccess { off := 0x000, bytes := 4, op := .read } ∧ BusErrorAccess { off := 0x020, bytes := 4, op := .read } ∧
    BusErrorAccess { off := 0x0FC, bytes := 4, op := .read } ∧ BusErrorAccess { off := 0x004, bytes := 4, op := .write v } ∧
    BusErrorAccess { off := 0x0FC, bytes := 4, op := .write v } ∧ BusErrorAccess { off := 0x200, bytes := 4, op := .write v } := by
  refine ⟨fun a h => ⟨rfl, rfl, h⟩, ?_, ?_, ?_, ?_, ?_, ?_, ?_, ?_⟩ <;> simp [BusErrorAccess]

theorem witness_InbufReadsBackWhatWasWritten (v : Word) :
    (start [writes 0x1FC v, reads 0x1FC]).busy = false ∧ (start [writes 0x1FC v, reads 0x1FC]).resetIn = false ∧
    BuffersCanonical (start [writes 0x1FC v, reads 0x1FC]) ∧ 0x1FC % 4 = 0 ∧ 0x100 ≤ 0x1FC ∧ 0x1FC < 0x200 :=
  ⟨rfl, rfl, ⟨rfl, rfl⟩, by decide, by decide, by decide⟩

/-- The last byte of the window and the first after it. -/
theorem witness_PlatformAddressesReachTheWindow (op : AccessOp) :
    (start [.platform (Config.params.base + 0x3FF) 4 op]).pending = [.platform (Config.params.base + 0x3FF) 4 op] ∧
    0x3FF < 0x400 ∧
    ¬ (Config.params.base ≤ Config.params.base + 0x400 ∧ Config.params.base + 0x400 < Config.params.base + 0x400) :=
  ⟨rfl, by decide, fun h => lt_irrefl _ h.2⟩

/-! Invariants and whole-machine rules. -/

/-- The engine's first step of a running HSPREAD. -/
theorem running_steps : step (running .hspread 0 []) = .next ((running .hspread 0 []).roundStep Config.params .hspread) :=
  (step_eq_stepWith _).trans (stepWith_of_roundEnabled ⟨rfl, rfl, rfl, rfl, by decide⟩)

/-- A running HSPREAD, its lanes 0, meets the invariant of LanesStayCanonical, StatusStaysLegal, BuffersStayCanonical,
SequencingStaysLegalAndNeverFaults and UnusedLanesStayZero, and has a next state. -/
theorem witness_invariants :
    LanesCanonical Config.params (running .hspread 0 []) ∧ StatusLegal (running .hspread 0 []) ∧
    BuffersCanonical (running .hspread 0 []) ∧ Sequenced Config.params (running .hspread 0 []) ∧
    UnusedLanesZero Config.params (running .hspread 0 []) ∧ ∃ t, step (running .hspread 0 []) = .next t := by
  have hz : ∀ l < 16, laneAt (running .hspread 0 []).lanes l = 0#128 := by decide
  refine ⟨fun l hl => ?_, ?_, ⟨rfl, rfl⟩, ⟨fun _ => ⟨.hspread, rfl, Nat.zero_le _⟩, fun h => ?_, ?_⟩, fun l hl _ => hz l hl,
    _, running_steps⟩
  · rw [hz l hl]; exact Config.params_wellFormed.pos
  · unfold StatusLegal; decide
  · exact absurd h (by decide)
  · exact Nat.zero_le _

/-- A command written while another runs. -/
theorem witness_AccessesDoNotDisturbARunningCommand :
    ∃ s t : State, s.busy = true ∧ s.pending = [writes 0x000 0x00000003#32] ∧
      (writes 0x000 0x00000003#32).isReset = false ∧ (writes 0x000 0x00000003#32).isWait = false ∧ step s = .next t :=
  ⟨{ running .hspread 0 [] with pending := [writes 0x000 0x00000003#32] }, _, rfl, rfl, rfl, rfl, rfl⟩

/-- A rejected command, one engine step, a read of the lanes; and, at the last round, the wait on which the command
completes. -/
theorem witness_InterleavingDoesNotChangeTheCommand :
    let s : State := { running .hspread 0 [] with pending := [writes 0x000 0x00000003#32, .wait, reads 0x300] }
    let s' : State := { running .hspread 90 [] with pending := [.wait, writes 0x008 0x00000003#32, .wait] }
    (s.busy = true ∧ s.resetIn = false ∧ opInstr s.lastop = some .hspread ∧ (∀ e ∈ s.pending, e.isReset = false) ∧
      s.round.toNat + (s.pending.dropLast.filter Event.isWait).length ≤ roundCount Config.params .hspread) ∧
    s'.busy = true ∧ s'.resetIn = false ∧ opInstr s'.lastop = some .hspread ∧ (∀ e ∈ s'.pending, e.isReset = false) ∧
    s'.round.toNat + (s'.pending.dropLast.filter Event.isWait).length ≤ roundCount Config.params .hspread ∧
    roundCount Config.params .hspread < s'.round.toNat + (s'.pending.filter Event.isWait).length :=
  ⟨⟨rfl, rfl, rfl, by decide, by decide⟩, rfl, rfl, rfl, by decide, by decide, by decide⟩

/-- Two blocks with one empty input, whose buffers, lanes, OUTBUF and STATUS differ. -/
theorem witness_ResultDependsOnlyOnTheInput (i : Instr) :
    let s := idle 0 []
    let s' : State := { idle 0 katInput with lanes := lanesFrom [1], outbuf := [(0, 9#8)], err := true, errcode := 4#4 }
    Acceptable Config.params i s ∧ s'.busy = false ∧ InputsAgree i s s' ∧ s.pending = [] ∧ s'.pending = [] ∧
    s.resetIn = false ∧ s'.resetIn = false := by
  refine ⟨zeros_acceptable i 0 (Nat.zero_le _), rfl, ⟨rfl, ?_⟩, rfl, rfl, rfl, rfl⟩
  cases i <;> exact fun k hk => absurd hk (Nat.not_lt_zero k)

/-- An idle block with no input, about to be given HFEISTEL's word. -/
def aboutToStart (S : Lanes) (err : Bool) : State :=
  { start [writes 0x000 0x00000003#32] with lanes := S, err := err, errcode := 4#4 }

theorem aboutToStart_steps (S : Lanes) (err : Bool) :
    ∃ t, step (aboutToStart S err) = .next t ∧ t.err = false ∧ t.lanes = loadFixed [] 0 := by
  have ha : Acceptable Config.params .hfeistel { aboutToStart S err with pending := [], replies := [.done] } :=
    ⟨rfl, Nat.zero_le _, (zeros_acceptable .hfeistel 0 (Nat.zero_le _)).canonical⟩
  exact ⟨_, congrArg Host.Outcome.next (presentCommand_of_acceptable ha), rfl, rfl⟩

/-- A block in error, on which a command is accepted, and on which reset is asserted. -/
theorem witness_ErrIsClearedOnlyByAcceptanceAndReset :
    (∃ s t : State, step s = .next t ∧ s.err = true ∧ t.err = false ∧ s.pending = [writes 0x000 0x00000003#32]) ∧
    ∃ s t : State, step s = .next t ∧ s.err = true ∧ t.err = false ∧ s.pending = [.assertReset] := by
  obtain ⟨t, h, he, _⟩ := aboutToStart_steps State.reset.lanes true
  exact ⟨⟨_, t, h, rfl, he, rfl⟩, { start [.assertReset] with err := true, errcode := 4#4 }, _, rfl, rfl, rfl, rfl⟩

/-- A completion whose result is not 0, and reset. -/
theorem witness_OutbufIsWrittenOnlyByCompletionAndReset :
    (∃ t, step (running .hspread 91 [1, 2]) = .next t ∧ t.outbuf ≠ (running .hspread 91 [1, 2]).outbuf) ∧
    ∃ s t : State, step s = .next t ∧ t.outbuf ≠ s.outbuf ∧ s.atResetEdge :=
  ⟨⟨_, (step_eq_stepWith _).trans (stepWith_of_completionEnabled (i := .hspread) ⟨rfl, rfl, rfl, rfl, rfl⟩),
      by decide +kernel⟩,
    { start [.assertReset] with outbuf := [(0, 9#8)] }, _, rfl, by decide, rfl⟩

/-- INLEN and the last word of INBUF written by an idle host, by offset and by platform address, and reset. -/
theorem witness_InputIsWrittenOnlyByAnIdleHostAndReset :
    (∃ s t : State, step s = .next t ∧ t.inlen ≠ s.inlen ∧ HostWrites Config.params 0x008 16#32 s.move) ∧
    (∃ s t : State, step s = .next t ∧ t.inbuf ≠ s.inbuf ∧ HostWrites Config.params 0x1FC 5#32 s.move) ∧
    (∃ s t : State, step s = .next t ∧ t.inlen ≠ s.inlen ∧ s.move = .platform (Config.params.base + 0x008) 4 (.write 16#32)) ∧
    ∃ s t : State, step s = .next t ∧ t.inlen ≠ s.inlen ∧ s.atResetEdge := by
  refine ⟨⟨start [writes 0x008 16#32], _, rfl, by decide, rfl⟩, ⟨start [writes 0x1FC 5#32], _, rfl, by decide, rfl⟩,
    ⟨start [.platform (Config.params.base + 0x008) 4 (.write 16#32)], { start [] with inlen := 16#32, replies := [.done] }, ?_,
      by decide, rfl⟩,
    { start [.assertReset] with inlen := 16#32 }, _, rfl, by decide, rfl⟩
  have h : windowOffset Config.params (Config.params.base + 0x008) = some 0x008 := by
    rw [windowOffset, if_pos ⟨Nat.le_add_right _ _, Nat.add_lt_add_left (by decide) _⟩, Nat.add_sub_cancel_left]
  simp only [step, machineStep, State.move, start, onEvent, h]
  rfl

/-- A running command, from a lane that is no field element; an acceptance; reset. -/
theorem witness_LanesAreWrittenOnlyByTheEngineAndReset :
    (∃ s t : State, step s = .next t ∧ t.lanes ≠ s.lanes ∧ s.move = .wait) ∧
    (∃ s t : State, step s = .next t ∧ t.lanes ≠ s.lanes ∧ HostWrites Config.params 0x000 0x00000003#32 s.move) ∧
    ∃ s t : State, step s = .next t ∧ t.lanes ≠ s.lanes ∧ s.atResetEdge := by
  obtain ⟨t, ht, _, hl⟩ := aboutToStart_steps (lanesFrom [5]) false
  refine ⟨⟨running .hspread 0 [2 ^ 128 - 1], _,
      (step_eq_stepWith _).trans (stepWith_of_roundEnabled (i := .hspread) ⟨rfl, rfl, rfl, rfl, by decide⟩), fun h => ?_, rfl⟩,
    ⟨aboutToStart (lanesFrom [5]) false, t, ht, ?_, rfl⟩,
    { start [.assertReset] with lanes := lanesFrom [5] }, _, rfl, by decide, rfl⟩
  · have h1 : laneAt (running .hspread 0 [2 ^ 128 - 1]).lanes 0 = -1#128 := by decide
    have h2 := mds_lt Config.params_wellFormed Config.params.mdsS (w := 6) (by decide)
      (if spreadFull 0 then sboxAll Config.params 6 (arkFlat Config.params Config.params.tS 0 (lanesFrom [2 ^ 128 - 1]))
        else sboxLast Config.params (arkFlat Config.params Config.params.tS 0 (lanesFrom [2 ^ 128 - 1]))) (i := 0) (by decide)
    have h3 := congrArg (fun S => (laneAt S 0).toNat) h
    simp only [h1] at h3
    have := Config.params_wellFormed.lt_lane
    exact absurd (h3.ge.trans_lt h2) (not_lt.2 (by simpa using Nat.le_sub_one_of_lt this))
  · rw [hl]
    decide

/-- With nothing pending, and on a wait event with more to come, after a command has completed. -/
theorem witness_IdleBlockKeepsItsState (e : Event) :
    let s : State := { idle 5 katInput with done := true, lastop := 1#4, round := 91#32 }
    let s' : State := { s with pending := [.wait, e] }
    (s.move = .wait ∧ s.busy = false ∧ s.resetIn = false) ∧ s'.move = .wait ∧ s'.busy = false ∧ s'.resetIn = false :=
  ⟨⟨rfl, rfl, rfl⟩, rfl, rfl, rfl⟩

/-- A step with a next state, and one without. -/
theorem witness_BlockStepsUnderParametersAndTheHostsMove :
    (∃ t, step (running .hspread 0 []) = .next t) ∧
    step { start [reads 0x004] with resetIn := true } = .refused .accessDuringReset := ⟨⟨_, running_steps⟩, rfl⟩

end Sys2Proof.Tests
end

namespace Sys2Proof.Machine

/-! ## Invariants of a step

`step_did` answers the cases of a step from a state that agrees with `s` on FMPP's machine state. Every statement of 10_state
speaks of the machine state alone, so here the cases are taken from `s` itself, its host side replaced. -/

/-- The cases of a step from `s`, the host side of `s` as the step leaves it. -/
theorem step_did_withHost {s t : State} (h : step s = .next t) :
    ∃ p r d, StepDid Config.params s.move { s with pending := p, replies := r, draws := d } t := by
  obtain ⟨⟨b, p, r, d⟩, hb, hd⟩ := step_did h
  obtain rfl : b = s.toFmpp := hb
  exact ⟨p, r, d, hd⟩

/-- A predicate of the machine state that every case of a step keeps is kept by every step. -/
theorem step_keeps {I : State → Prop} (host : ∀ s p r d, I s → I { s with pending := p, replies := r, draws := d })
    (keeps : ∀ e s t, StepDid Config.params e s t → I s → I t) : ∀ s t, I s → step s = .next t → I t := by
  intro s t hs h
  obtain ⟨p, r, d, hd⟩ := step_did_withHost h
  exact keeps _ _ _ hd (host s p r d hs)

/-! ### Reset -/

theorem lanesCanonical_initialised {c : Params} (h : c.WellFormed) (s : State) (b : Bool) :
    LanesCanonical c (s.initialised b) := fun i _ => by
  rw [State.initialised_lanes, laneAt_reset]
  exact h.pos

theorem unusedLanesZero_initialised (c : Params) (s : State) (b : Bool) : UnusedLanesZero c (s.initialised b) :=
  fun l _ _ => laneAt_reset l

theorem statusLegal_initialised (s : State) (b : Bool) : StatusLegal (s.initialised b) :=
  ⟨fun _ => rfl, ⟨fun _ => rfl, fun _ => rfl⟩, Nat.zero_le 4⟩

theorem buffersCanonical_initialised (s : State) (b : Bool) : BuffersCanonical (s.initialised b) := ⟨rfl, rfl⟩

theorem sequenced_initialised (c : Params) (s : State) (b : Bool) : Sequenced c (s.initialised b) :=
  ⟨fun h => absurd h Bool.false_ne_true, fun h => absurd h Bool.false_ne_true, Nat.zero_le 65535⟩

/-- Settles O2: `State.reset` is what initialising it with the reset input released gives. -/
theorem resetMeetsEveryInvariant : Obligations.ResetMeetsEveryInvariant :=
  ⟨lanesCanonical_initialised Config.params_wellFormed State.reset false, statusLegal_initialised State.reset false,
    buffersCanonical_initialised State.reset false, sequenced_initialised _ State.reset false,
    unusedLanesZero_initialised _ State.reset false, fun h => absurd h Bool.false_ne_true⟩

/-! ## Canonical lanes (R22) -/

/-- Every lane of a register file is a field element. -/
def CanonicalLanes (c : Params) (S : Lanes) : Prop := ∀ i < 16, (laneAt S i).toNat < c.P

theorem lanesCanonical_iff (c : Params) (s : State) : LanesCanonical c s ↔ CanonicalLanes c s.lanes := Iff.rfl

section Layers

variable {c : Params} {S : Lanes}

/-- A layer that computes field elements keeps the lanes canonical. -/
theorem CanonicalLanes.layer {w : Nat} {f : Nat → Lane} (hS : CanonicalLanes c S) (hw : w ≤ 16)
    (hf : ∀ i < w, (f i).toNat < c.P) : CanonicalLanes c (layer w f S) := fun i hi => by
  rw [laneAt_layer hw]
  split
  · next h => exact hf i h
  · exact hS i hi

theorem CanonicalLanes.arkFlat (hS : CanonicalLanes c S) (h : c.WellFormed) (t : List Lane) (s : Nat) :
    CanonicalLanes c (arkFlat c t s S) := hS.layer (by decide) fun _ _ => fadd_lt h _ _

theorem CanonicalLanes.ark2d (hS : CanonicalLanes c S) (h : c.WellFormed) (off col : Nat) :
    CanonicalLanes c (ark2d c off col S) := hS.layer h.w_le fun _ _ => fadd_lt h _ _

theorem CanonicalLanes.sboxAll {w : Nat} (hS : CanonicalLanes c S) (h : c.WellFormed) (hw : w ≤ 16) :
    CanonicalLanes c (sboxAll c w S) := hS.layer hw fun _ _ => fexp_lt h _ _

theorem CanonicalLanes.isboxAll {w : Nat} (hS : CanonicalLanes c S) (h : c.WellFormed) (hw : w ≤ 16) :
    CanonicalLanes c (isboxAll c w S) := hS.layer hw fun _ _ => fexp_lt h _ _

theorem CanonicalLanes.sboxLast (hS : CanonicalLanes c S) (h : c.WellFormed) : CanonicalLanes c (sboxLast c S) :=
  hS.layer (by decide) fun i hi => by
    split
    · exact fexp_lt h _ _
    · exact hS i (hi.trans (by decide))

theorem CanonicalLanes.mds {w : Nat} (hS : CanonicalLanes c S) (h : c.WellFormed) (m : List (List Lane)) (hw : w ≤ 16) :
    CanonicalLanes c (mds c m w S) := hS.layer hw fun _ _ => fsum_lt h _ _

theorem CanonicalLanes.reverseLanes {w : Nat} (hS : CanonicalLanes c S) (hw : w ≤ 16) :
    CanonicalLanes c (reverseLanes w S) := hS.layer hw fun i _ => hS (w - 1 - i) (by omega)

theorem CanonicalLanes.feistelStep (hS : CanonicalLanes c S) (h : c.WellFormed) (r : Nat) :
    CanonicalLanes c (feistelStep c r S) := hS.layer (by decide) fun i _ => by
  split
  · exact fadd_lt h _ _
  · exact hS 0 (by decide)

theorem CanonicalLanes.spreadRound (hS : CanonicalLanes c S) (h : c.WellFormed) (r : Nat) :
    CanonicalLanes c (spreadRound c r S) := by
  have hA := hS.arkFlat h c.tS r
  refine CanonicalLanes.mds ?_ h _ (by decide)
  split
  · exact hA.sboxAll h (by decide)
  · exact hA.sboxLast h

/-- Every round step keeps the lanes canonical (R186). -/
theorem CanonicalLanes.roundLanes (hS : CanonicalLanes c S) (h : c.WellFormed) (i : Instr) (r : Nat) :
    CanonicalLanes c (roundLanes c i r S) := by
  have six : Config.wf ≤ 16 := by decide
  have hW : c.W ≤ 16 := h.w_le
  cases i with
  | hspread => exact hS.spreadRound h r
  | hrescue =>
    have hA := ((hS.isboxAll h six).mds h c.mdsR six).arkFlat h c.tR (2 * r + 1)
    exact ((hA.sboxAll h six).mds h c.mdsR six).arkFlat h c.tR (2 * r + 2)
  | hfeistel => exact hS.feistelStep h r
  | sdigest =>
    have hA := ((hS.ark2d h 0 (r % c.C)).sboxAll h hW).mds h c.mdsW hW
    exact ((hA.ark2d h c.W (r % c.C)).isboxAll h hW).mds h c.mdsW hW
  | invmds => exact hS.mds h c.mdsWInv hW

/-- Completion keeps the lanes canonical (R188). -/
theorem CanonicalLanes.finalLanes (hS : CanonicalLanes c S) (h : c.WellFormed) (i : Instr) :
    CanonicalLanes c (finalLanes c i S) := by
  cases i with
  | sdigest => exact hS.reverseLanes h.w_le
  | hspread | hrescue | hfeistel | invmds => exact hS

/-! ### The lanes a command loads (R87, R88, R181, R182) -/

theorem canonicalLanes_loadFixed {buf : Memory} {n : Nat} (h : c.WellFormed) (hc : ∀ l < 6, loopLane buf l n < c.P) :
    CanonicalLanes c (loadFixed buf n) := fun l _ => by
  rw [laneAt_loadFixed]
  split
  · next hl => rw [loadFixedLane_toNat]; exact hc l hl
  · exact h.pos

theorem canonicalLanes_loadElements {buf : Memory} {n : Nat} (h : c.WellFormed) (hn : n ≤ 16)
    (hc : ∀ k < n, elementValue buf k < c.P) : CanonicalLanes c (loadElements buf n) := fun l _ => by
  rw [laneAt_loadElements hn]
  split
  · next hl => rw [laneOf_toNat]; exact hc l hl
  · exact h.pos

/-- An acceptable command loads field elements: the check of R181 looks at all it loads. -/
theorem Acceptable.canonicalLanes_loadedLanes {i : Instr} {s : State} (ha : Acceptable c i s) (h : c.WellFormed) :
    CanonicalLanes c (loadedLanes c i s.inbuf s.inlen.toNat) := by
  obtain ⟨-, hlen, hcan⟩ := ha
  have hW : c.W ≤ 16 := h.w_le
  cases i with
  | hspread | hfeistel => exact canonicalLanes_loadFixed h hcan
  | hrescue => exact (canonicalLanes_loadFixed h hcan).arkFlat h c.tR 0
  | sdigest => exact (canonicalLanes_loadElements h ((hlen.trans h.r_le).trans hW) hcan).reverseLanes hW
  | invmds => exact canonicalLanes_loadElements h (hlen.trans hW) hcan

end Layers

theorem StepDid.keeps_lanesCanonical {c : Params} {e : Event} {s t : State} (h : c.WellFormed) (hd : StepDid c e s t)
    (hs : LanesCanonical c s) : LanesCanonical c t := by
  rw [lanesCanonical_iff] at hs
  cases hd with
  | nothing | rejected | wroteInlen | wroteInbuf => exact hs
  | accepted _ _ _ i _ ha => exact ha.canonicalLanes_loadedLanes h
  | round _ _ _ i => exact hs.roundLanes h i _
  | completed _ _ _ i => exact hs.finalLanes h i
  | initialised b => exact lanesCanonical_initialised h s b

/-- Settles O44: acceptance loads what its check found canonical, and every layer computes field elements. -/
theorem lanesStayCanonical : Obligations.LanesStayCanonical :=
  step_keeps (fun _ _ _ _ h => h) fun _ _ _ hd => hd.keeps_lanesCanonical Config.params_wellFormed

/-! ## Sequencing (R23, R24, R187, R204) -/

theorem hostWrite_ne_fault (c : Params) (off : Nat) (v : Word) (s : State) (f : Fault) :
    hostWrite (execWith c) off v s ≠ .fault f := by
  unfold hostWrite
  split
  · unfold presentWord
    split <;> exact nofun
  split
  · exact nofun
  split <;> exact nofun

theorem hostAccess_ne_fault (c : Params) (a : Access) (s : State) (f : Fault) :
    hostAccess c (execWith c) a s ≠ .fault f := by
  unfold hostAccess
  split
  · exact nofun
  split
  · exact nofun
  split
  · split
    · exact nofun
    · exact hostWrite_ne_fault c _ _ s f
  · exact nofun

/-- The engine stops only where neither R186 nor R188 enables a step. -/
theorem engineStep_fault {c : Params} {s : State} {f : Fault} (h : engineStep c s = .fault f) (i : Instr)
    (ho : opInstr s.lastop = some i) : roundCount c i < s.round.toNat := by
  unfold engineStep at h
  rw [ho] at h
  dsimp only at h
  split at h
  · cases h
  split at h
  · cases h
  · omega

theorem idleTurn_fault {c : Params} {s : State} {f : Fault} (h : idleTurn c s = .fault f) :
    s.busy = true ∧ ∀ i, opInstr s.lastop = some i → roundCount c i < s.round.toNat := by
  unfold idleTurn at h
  split at h
  · cases h
  split at h
  · next hb => exact ⟨hb, engineStep_fault h⟩
  · cases h

/-- The machine stops with a fault only while a command runs that has no step enabled. -/
theorem onEvent_fault {c : Params} {e : Event} {s : State} {f : Fault} (h : onEvent c (execWith c) e s = .fault f) :
    s.busy = true ∧ ∀ i, opInstr s.lastop = some i → roundCount c i < s.round.toNat := by
  unfold onEvent at h
  split at h
  · next a => exact absurd h (hostAccess_ne_fault c a s f)
  · split at h
    · exact absurd h (hostAccess_ne_fault c _ s f)
    · cases h
  · exact idleTurn_fault h
  · cases h
  · cases h

theorem Sequenced.step_ne_fault {s : State} (hs : Sequenced Config.params s) (f : Fault) : step s ≠ .fault f := by
  intro h
  obtain ⟨running, -, -⟩ := hs
  obtain ⟨hb, hstuck⟩ := onEvent_fault (s := { s with pending := s.pending.tail }) (step_eq_stepWith s ▸ h)
  obtain ⟨i, ho, hk⟩ := running hb
  exact absurd hk (not_le.2 (hstuck i ho))

/-- A round step adds 1 to ROUND: below a round count it does not wrap (R23). -/
theorem roundStep_round_toNat {c : Params} {s : State} {i : Instr} (h : c.WellFormed)
    (hk : s.round.toNat < roundCount c i) : (s.roundStep c i).round.toNat = s.round.toNat + 1 := by
  have hK := roundCount_le h i
  rw [State.roundStep_round, BitVec.toNat_add]
  exact Nat.mod_eq_of_lt (show s.round.toNat + 1 < 2 ^ 32 by omega)

theorem StepDid.keeps_sequenced {c : Params} {e : Event} {s t : State} (h : c.WellFormed) (hd : StepDid c e s t)
    (hs : Sequenced c s) : Sequenced c t := by
  cases hd with
  | nothing | rejected | wroteInlen | wroteInbuf => exact hs
  | accepted _ _ _ i =>
    exact ⟨fun _ => ⟨i, opInstr_op i, Nat.zero_le _⟩, fun hd => absurd hd Bool.false_ne_true, Nat.zero_le _⟩
  | round _ _ _ i ho hk =>
    obtain ⟨-, completed, -⟩ := hs
    have hr := roundStep_round_toNat h hk
    refine ⟨fun _ => ⟨i, ho, by omega⟩, fun hdone => ?_, by have := roundCount_le h i; omega⟩
    obtain ⟨j, hj, hK⟩ := completed hdone
    cases Option.some.inj (ho.symm.trans hj)
    exact absurd hK hk.ne
  | completed _ _ _ i ho hk =>
    obtain ⟨-, -, bound⟩ := hs
    exact ⟨fun hb => absurd hb Bool.false_ne_true, fun _ => ⟨i, ho, hk⟩, bound⟩
  | initialised b => exact sequenced_initialised c s b

/-- Settles O47: a legal running state has its round or its completion step enabled, and each case of a step keeps ROUND
within the command's rounds. -/
theorem sequencingStaysLegalAndNeverFaults : Obligations.SequencingStaysLegalAndNeverFaults := fun s hs =>
  ⟨hs.step_ne_fault, fun t => step_keeps (fun _ _ _ _ h => h)
    (fun _ _ _ hd => hd.keeps_sequenced Config.params_wellFormed) s t hs⟩

/-! ## STATUS (R26, R200) -/

theorem errCode_legal (e : Err) : errCode e ≠ 0#4 ∧ (errCode e).toNat ≤ 4 := by cases e <;> decide

theorem StatusLegal.reject {s : State} (hs : StatusLegal s) (e : Err) : StatusLegal (s.reject e) := by
  obtain ⟨hbusy, -, -⟩ := hs
  obtain ⟨hne, hle⟩ := errCode_legal e
  exact ⟨hbusy, ⟨fun h => absurd h.symm Bool.false_ne_true, fun h => absurd h hne⟩, hle⟩

theorem StepDid.keeps_statusLegal {c : Params} {e : Event} {s t : State} (hd : StepDid c e s t) (hs : StatusLegal s) :
    StatusLegal t := by
  have ⟨hbusy, herr, hcode⟩ := hs
  cases hd with
  | nothing | wroteInlen | wroteInbuf | round => exact hs
  | rejected _ _ _ _ err => exact hs.reject err
  | accepted => exact ⟨fun _ => rfl, ⟨fun _ => rfl, fun _ => rfl⟩, Nat.zero_le 4⟩
  | completed => exact ⟨fun h => absurd h Bool.false_ne_true, herr, hcode⟩
  | initialised b => exact statusLegal_initialised s b

/-- Settles O45: a rejection sets ERR with a code of R200, and acceptance and completion write BUSY and DONE together. -/
theorem statusStaysLegal : Obligations.StatusStaysLegal :=
  step_keeps (fun _ _ _ _ h => h) fun _ _ _ hd => hd.keeps_statusLegal

/-! ## The buffers' canonical form (log 14) -/

theorem finalOutbuf_wf (c : Params) (i : Instr) (S : Lanes) : (finalOutbuf c i S).wf = true := by
  rw [finalOutbuf_eq]
  exact resultBytes_wf _ _

theorem StepDid.keeps_buffersCanonical {c : Params} {e : Event} {s t : State} (hd : StepDid c e s t)
    (hs : BuffersCanonical s) : BuffersCanonical t := by
  have ⟨hin, hout⟩ := hs
  cases hd with
  | nothing | rejected | accepted | wroteInlen | round => exact hs
  | wroteInbuf _ _ off v _ h1 h2 => exact ⟨wf_setWord hin (by omega) v, hout⟩
  | completed _ _ _ i => exact ⟨hin, finalOutbuf_wf c i s.lanes⟩
  | initialised b => exact buffersCanonical_initialised s b

/-- Settles O46: only a write of an INBUF word and a completion write a buffer, each a canonical one. -/
theorem buffersStayCanonical : Obligations.BuffersStayCanonical :=
  step_keeps (fun _ _ _ _ h => h) fun _ _ _ hd => hd.keeps_buffersCanonical

/-! ## The lanes a command does not use (R21) -/

section Unused

variable {c : Params} (h : c.WellFormed) {i : Instr} {l : Nat} (hl : laneWidth c i ≤ l)
include h hl

/-- A round step leaves the lanes its command does not use: it is made of layers of the command's width. -/
theorem laneAt_roundLanes_of_unused (r : Nat) (S : Lanes) : laneAt (roundLanes c i r S) l = laneAt S l := by
  have six : Config.wf ≤ 16 := by decide
  have hW : c.W ≤ 16 := h.w_le
  have outside : ¬ l < laneWidth c i := not_lt.2 hl
  cases i with
  | hspread =>
    have above : ¬ l < Config.wf := outside
    have h6 : ¬ l < 6 := outside
    have h5 : l ≠ 5 := by omega
    rw [roundLanes, spreadRound, laneAt_mds c _ six, if_neg above]
    split
    · rw [laneAt_sboxAll c six, if_neg above, laneAt_arkFlat, if_neg h6]
    · rw [laneAt_sboxLast, if_neg h5, laneAt_arkFlat, if_neg h6]
  | hrescue =>
    have above : ¬ l < Config.wf := outside
    have h6 : ¬ l < 6 := outside
    simp only [roundLanes, rescueRound, laneAt_arkFlat, laneAt_mds c _ six, laneAt_sboxAll c six, laneAt_isboxAll c six,
      above, h6, if_false]
  | hfeistel =>
    have h6 : ¬ l < 6 := outside
    rw [roundLanes, feistelRound, laneAt_feistelStep, if_neg h6]
  | sdigest =>
    have above : ¬ l < c.W := outside
    simp only [roundLanes, spongeRound, laneAt_ark2d hW, laneAt_mds c _ hW, laneAt_sboxAll c hW, laneAt_isboxAll c hW,
      above, if_false]
  | invmds =>
    have above : ¬ l < c.W := outside
    rw [roundLanes, invmdsRound, mdsInv, laneAt_mds c _ hW, if_neg above]

theorem laneAt_finalLanes_of_unused (S : Lanes) : laneAt (finalLanes c i S) l = laneAt S l := by
  cases i with
  | sdigest =>
    have above : ¬ l < c.W := not_lt.2 hl
    rw [finalLanes, spongeFinal, laneAt_reverseLanes h.w_le, if_neg above]
  | hspread | hrescue | hfeistel | invmds => rfl

/-- A legal length loads 0 into the lanes the command does not use (R87, R162, R165, R182). -/
theorem laneAt_loadedLanes_of_unused {n : Nat} (hn : n ≤ limitOf c i) (buf : Memory) :
    laneAt (loadedLanes c i buf n) l = 0#128 := by
  have hW : c.W ≤ 16 := h.w_le
  have fixed (h6 : 6 ≤ l) : laneAt (loadFixed buf n) l = 0#128 := by rw [laneAt_loadFixed, if_neg (not_lt.2 h6)]
  have elements (hnW : n ≤ c.W) (hWl : c.W ≤ l) : laneAt (loadElements buf n) l = 0#128 := by
    rw [laneAt_loadElements (hnW.trans hW), if_neg (not_lt.2 (hnW.trans hWl))]
  cases i with
  | hspread | hfeistel => exact fixed hl
  | hrescue =>
    have above : ¬ l < 6 := not_lt.2 hl
    rw [loadedLanes, rescuePrologue, laneAt_arkFlat, if_neg above]
    exact fixed hl
  | sdigest =>
    have above : ¬ l < c.W := not_lt.2 hl
    rw [loadedLanes, spongeLoad, laneAt_reverseLanes hW, if_neg above]
    exact elements (hn.trans h.r_le) hl
  | invmds => exact elements hn hl

end Unused

theorem StepDid.keeps_unusedLanesZero {c : Params} {e : Event} {s t : State} (h : c.WellFormed) (hd : StepDid c e s t)
    (hs : UnusedLanesZero c s) : UnusedLanesZero c t := by
  cases hd with
  | nothing | rejected | wroteInlen | wroteInbuf => exact hs
  | accepted _ _ _ i _ ha =>
    exact fun l _ hl => laneAt_loadedLanes_of_unused h (hl i (opInstr_op i)) ha.length _
  | round _ _ _ i ho =>
    exact fun l h16 hl => (laneAt_roundLanes_of_unused h (hl i ho) _ _).trans (hs l h16 hl)
  | completed _ _ _ i ho =>
    exact fun l h16 hl => (laneAt_finalLanes_of_unused h (hl i ho) _).trans (hs l h16 hl)
  | initialised b => exact unusedLanesZero_initialised c s b

/-- Settles O48: acceptance zeroes the lanes above its command's width, and the engine's layers are no wider. -/
theorem unusedLanesStayZero : Obligations.UnusedLanesStayZero :=
  step_keeps (fun _ _ _ _ h => h) fun _ _ _ hd => hd.keeps_unusedLanesZero Config.params_wellFormed

/-! ## Who writes OUTBUF, INLEN, INBUF and the lanes (R20, R27 to R29) -/

theorem event_eq_wait_of_isWait {e : Event} (h : e.isWait = true) : e = .wait := by
  cases e with
  | wait => rfl
  | access | platform | assertReset | releaseReset => cases h

/-- Settles O53: of the cases of a step only completion and reset have another OUTBUF. -/
theorem outbufIsWrittenOnlyByCompletionAndReset : Obligations.OutbufIsWrittenOnlyByCompletionAndReset := by
  intro s t h hne
  obtain ⟨p, r, d, hd⟩ := step_did_withHost h
  cases hd with
  | nothing | rejected | accepted | wroteInlen | wroteInbuf | round => exact absurd rfl hne
  | completed _ _ hb i ho hk => exact .inr ⟨i, ho, hb, hk, rfl, rfl⟩
  | initialised _ cause => exact .inl (cause.imp id And.right)

/-- Settles O54: of the cases of a step only the two writes by an idle host and reset have another INLEN or INBUF. -/
theorem inputIsWrittenOnlyByAnIdleHostAndReset : Obligations.InputIsWrittenOnlyByAnIdleHostAndReset := by
  intro s t h hne
  obtain ⟨p, r, d, hd⟩ := step_did_withHost h
  cases hd with
  | nothing | rejected | accepted | round | completed =>
    exact absurd hne (not_or.2 ⟨not_not.2 rfl, not_not.2 rfl⟩)
  | wroteInlen hr hb v hw => exact .inr ⟨hb, hr, 0x008, v, hw, .inl ⟨rfl, rfl⟩⟩
  | wroteInbuf hr hb off v hw h1 h2 => exact .inr ⟨hb, hr, off, v, hw, .inr ⟨h1, h2, rfl⟩⟩
  | initialised _ cause => exact .inl (cause.imp id And.right)

/-- Settles O55: of the cases of a step only acceptance, the two engine steps and reset have other lanes. -/
theorem lanesAreWrittenOnlyByTheEngineAndReset : Obligations.LanesAreWrittenOnlyByTheEngineAndReset := by
  intro s t h hne
  obtain ⟨p, r, d, hd⟩ := step_did_withHost h
  cases hd with
  | nothing | rejected | wroteInlen | wroteInbuf => exact absurd rfl hne
  | accepted _ v hw i hv ha =>
    exact .inr (.inr ⟨i, v, hw, hv, ⟨ha.idle, ha.length, ha.canonical⟩, rfl, rfl⟩)
  | round he _ hb i ho hk =>
    exact .inr (.inl ⟨event_eq_wait_of_isWait he, hb, i, ho, .inl ⟨hk, rfl, hb⟩⟩)
  | completed he _ hb i ho hk =>
    exact .inr (.inl ⟨event_eq_wait_of_isWait he, hb, i, ho, .inr ⟨hk, rfl, rfl⟩⟩)
  | initialised _ cause => exact .inl (cause.imp id And.right)

/-! ## The step relation on the machine state (R36) -/

/-- Two outcomes that leave the same machine state of FMPP, the first with the events `p` still to come. -/
structure SameBlock (p : List Event) (o o' : Host.Outcome State Fault Refusal) : Prop where
  fmpp : fmppOutcome o = fmppOutcome o'
  pending : ∀ t, o = .next t → t.pending = p

theorem sameBlock_next {p : List Event} {t t' : State} (h : t.toFmpp = t'.toFmpp) (hp : t.pending = p) :
    SameBlock p (.next t) (.next t') :=
  ⟨congrArg Host.Outcome.next h, fun _ ht => by cases ht; exact hp⟩

theorem sameBlock_fault (p : List Event) (f : Fault) : SameBlock p (.fault f) (.fault f) := ⟨rfl, nofun⟩

theorem sameBlock_refused (p : List Event) (r : Refusal) : SameBlock p (.refused r) (.refused r) := ⟨rfl, nofun⟩

section SameBlock

variable {c : Params} {s s' : State} (hs : s.toFmpp = s'.toFmpp)
include hs

theorem presentCommand_sameBlock (i : Instr) :
    SameBlock s.pending (.next (presentCommand c i s)) (.next (presentCommand c i s')) := by
  obtain ⟨b, p, r, d⟩ := s
  obtain ⟨b', p', r', d'⟩ := s'
  cases hs
  have hcheck : check c (limitOf c i) (inputOf i ⟨b, p, r, d⟩) ⟨b, p, r, d⟩ =
      check c (limitOf c i) (inputOf i ⟨b, p', r', d'⟩) ⟨b, p', r', d'⟩ := by cases i <;> rfl
  rw [presentCommand_eq, presentCommand_eq, State.present, State.present, hcheck]
  split
  · exact sameBlock_next rfl rfl
  · exact sameBlock_next rfl rfl

theorem engineStep_sameBlock : SameBlock s.pending (engineStep c s) (engineStep c s') := by
  obtain ⟨b, p, r, d⟩ := s
  obtain ⟨b', p', r', d'⟩ := s'
  cases hs
  unfold engineStep
  dsimp only
  split
  · exact sameBlock_fault _ _
  split
  · exact sameBlock_next rfl rfl
  split
  · exact sameBlock_next rfl rfl
  · exact sameBlock_fault _ _

theorem idleTurn_sameBlock : SameBlock s.pending (idleTurn c s) (idleTurn c s') := by
  have engine := engineStep_sameBlock (c := c) hs
  unfold idleTurn
  rw [← hs]
  split
  · exact sameBlock_next rfl rfl
  split
  · exact engine
  · exact sameBlock_next hs rfl

/-- A rejection writes the same fields whatever the host's side is (R201). -/
theorem reject_sameBlock (e : Err) : SameBlock s.pending (.next (s.reject e)) (.next (s'.reject e)) := by
  unfold State.reject
  rw [← hs]
  exact sameBlock_next rfl rfl

theorem writeInlen_sameBlock (v : Word) : SameBlock s.pending (.next (writeInlen v s)) (.next (writeInlen v s')) := by
  unfold writeInlen
  rw [← hs]
  split
  · exact reject_sameBlock hs .busy
  · exact sameBlock_next rfl rfl

theorem writeInbuf_sameBlock (k : Nat) (v : Word) :
    SameBlock s.pending (.next (writeInbuf k v s)) (.next (writeInbuf k v s')) := by
  unfold writeInbuf
  rw [← hs]
  split
  · exact reject_sameBlock hs .busy
  · exact sameBlock_next rfl rfl

theorem presentWord_sameBlock (v : Word) :
    SameBlock s.pending (presentWord (execWith c) v s) (presentWord (execWith c) v s') := by
  unfold presentWord
  split
  · exact presentCommand_sameBlock hs _
  · unfold State.presentIllegal
    rw [← hs]
    exact reject_sameBlock hs _

theorem hostWrite_sameBlock (off : Nat) (v : Word) :
    SameBlock s.pending (hostWrite (execWith c) off v s) (hostWrite (execWith c) off v s') := by
  have answered : (s.answer .done).toFmpp = (s'.answer .done).toFmpp := hs
  unfold hostWrite
  split
  · exact presentWord_sameBlock answered v
  split
  · exact writeInlen_sameBlock answered v
  split
  · exact writeInbuf_sameBlock answered _ v
  · exact sameBlock_next hs rfl

theorem hostAccess_sameBlock (a : Access) :
    SameBlock s.pending (hostAccess c (execWith c) a s) (hostAccess c (execWith c) a s') := by
  unfold hostAccess
  rw [← hs]
  split
  · exact sameBlock_next hs rfl
  split
  · exact sameBlock_refused _ _
  split
  · split
    · exact sameBlock_next hs rfl
    · exact hostWrite_sameBlock hs _ _
  · exact sameBlock_next hs rfl

/-- What a move does to the machine state does not depend on the host's side of `State`, and it leaves the pending events. -/
theorem onEvent_sameBlock (e : Event) :
    SameBlock s.pending (onEvent c (execWith c) e s) (onEvent c (execWith c) e s') := by
  unfold onEvent
  split
  · exact hostAccess_sameBlock hs _
  · split
    · exact hostAccess_sameBlock hs _
    · exact sameBlock_next hs rfl
  · exact idleTurn_sameBlock hs
  · exact sameBlock_next rfl rfl
  · exact sameBlock_next rfl rfl

end SameBlock

/-- Settles O57: the step is its move on `s` with that event taken, and `fmppStep` is the same move on the machine state of
`s` beside an empty host side. -/
theorem blockStepsUnderParametersAndTheHostsMove : Obligations.BlockStepsUnderParametersAndTheHostsMove := by
  intro s
  rw [step_eq_stepWith]
  obtain ⟨fmpp, pending⟩ := onEvent_sameBlock (c := Config.params) (s := { s with pending := s.pending.tail })
    (s' := { toFmpp := s.toFmpp, pending := [], replies := [], draws := 0 }) rfl s.move
  exact ⟨fmpp, pending⟩

end Sys2Proof.Machine

namespace Sys2Proof

/-! ## Command words and their bytes (R56, R80, R86) -/

theorem opInstr_eq_some_iff (op : BitVec 4) (i : Instr) : opInstr op = some i ↔ op = i.op := by
  cases i <;> revert op <;> decide

/-- A word is its two fields (R81). -/
@[simp] theorem word_cmdFields (v : Word) : (cmdFields v).word = v :=
  (BitVec.extractLsb'_append_extractLsb'_eq_extractLsb' rfl).trans BitVec.extractLsb'_eq_self

theorem decode_encode (i : Instr) : decode (encode i) = .ok i := by cases i <;> rfl

theorem eq_encode_of_decode {v : Word} {i : Instr} (h : decode v = .ok i) : v = encode i := by
  unfold decode at h
  split at h
  · cases h
  next hrsv =>
  split at h
  · next j hj =>
    cases h
    have hfields : cmdFields v = i.fields :=
      congrArg₂ Cmd32.mk (not_not.1 hrsv) ((opInstr_eq_some_iff _ i).1 hj)
    rw [encode, ← hfields, word_cmdFields]
  · cases h

theorem decode_eq_ok_iff (v : Word) (i : Instr) : decode v = .ok i ↔ v = encode i :=
  ⟨eq_encode_of_decode, fun h => h ▸ decode_encode i⟩

theorem bytesOfWord_wordOfBytes (b0 b1 b2 b3 : Byte) : bytesOfWord (wordOfBytes b0 b1 b2 b3) = [b0, b1, b2, b3] := by
  have h0 : (wordOfBytes b0 b1 b2 b3).extractLsb' 0 8 = b0 := BitVec.extractLsb'_append_eq_right
  have h1 : (wordOfBytes b0 b1 b2 b3).extractLsb' 8 8 = b1 :=
    (BitVec.extractLsb'_append_eq_of_le le_rfl).trans BitVec.extractLsb'_append_eq_right
  have h2 : (wordOfBytes b0 b1 b2 b3).extractLsb' 16 8 = b2 :=
    (BitVec.extractLsb'_append_eq_of_le (by decide)).trans
      ((BitVec.extractLsb'_append_eq_of_le le_rfl).trans BitVec.extractLsb'_append_eq_right)
  have h3 : (wordOfBytes b0 b1 b2 b3).extractLsb' 24 8 = b3 :=
    (BitVec.extractLsb'_append_eq_of_le (by decide)).trans
      ((BitVec.extractLsb'_append_eq_of_le (by decide)).trans BitVec.extractLsb'_append_eq_left)
  rw [bytesOfWord, h0, h1, h2, h3]

theorem wordOfBytes_extractLsb' (v : Word) :
    wordOfBytes (v.extractLsb' 0 8) (v.extractLsb' 8 8) (v.extractLsb' 16 8) (v.extractLsb' 24 8) = v := by
  have h3 : v.extractLsb' 24 8 ++ v.extractLsb' 16 8 = v.extractLsb' 16 16 :=
    BitVec.extractLsb'_append_extractLsb'_eq_extractLsb' rfl
  have h2 : v.extractLsb' 16 16 ++ v.extractLsb' 8 8 = v.extractLsb' 8 24 :=
    BitVec.extractLsb'_append_extractLsb'_eq_extractLsb' rfl
  have h1 : v.extractLsb' 8 24 ++ v.extractLsb' 0 8 = v.extractLsb' 0 32 :=
    BitVec.extractLsb'_append_extractLsb'_eq_extractLsb' rfl
  rw [wordOfBytes, h3, h2, h1, BitVec.extractLsb'_eq_self]

theorem wordOfBytes_eq_iff (b0 b1 b2 b3 : Byte) (v : Word) :
    wordOfBytes b0 b1 b2 b3 = v ↔ [b0, b1, b2, b3] = bytesOfWord v := by
  refine ⟨fun h => h ▸ (bytesOfWord_wordOfBytes b0 b1 b2 b3).symm, fun h => ?_⟩
  cases h
  exact wordOfBytes_extractLsb' v

/-- Settles O8: four bytes are the bytes of the word they make, and a word decodes to `i` exactly when it is `encode i`. -/
theorem decodedBytesAreTheCommandsBytes : Obligations.DecodedBytesAreTheCommandsBytes := by
  intro bs i
  unfold decodeBytes
  split
  · next b0 b1 b2 b3 => rw [decode_eq_ok_iff, wordOfBytes_eq_iff, encodeBytes]
  · next hlen => exact ⟨nofun, fun h => (hlen _ _ _ _ h).elim⟩

/-! ## Which accesses are one aligned word (R54) -/

theorem Access.wellFormed_iff (a : Access) : a.wellFormed = true ↔ a.bytes = 4 ∧ a.off % 4 = 0 := by
  rw [Access.wellFormed, Bool.and_eq_true, beq_iff_eq, beq_iff_eq]

end Sys2Proof

namespace Sys2Proof.Machine

/-! ## The input bytes in the lanes (R58, R87) -/

/-- Settles O17: byte `k` is byte `k mod 16` of the little-endian number lane `k div 16` holds. -/
theorem loadFixedLaysTheBytesOverTheLanes : Obligations.LoadFixedLaysTheBytesOverTheLanes := by
  intro buf n k hk
  have hlane : k / 16 < 6 := by omega
  have hbyte : k % 16 < 16 := Nat.mod_lt _ (by decide)
  rw [laneAt_loadFixed, if_pos hlane, laneByteValue, loadFixedLane, leLane_toNat, leNat_byte _ hbyte, Nat.div_add_mod]
  split <;> rfl

/-! ## The ROM entries the engine reads (R60) -/

theorem hasEntries_of_matrixShape {P rows cols : Nat} {m : List (List Lane)} (h : MatrixShape P rows cols m) :
    HasEntries m rows cols := fun i hi j hj => by
  have hrow : i < m.length := h.nrows.symm ▸ hi
  exact ⟨m[i], List.getElem?_eq_getElem hrow, (h.ncols _ (List.getElem_mem hrow)).symm ▸ hj⟩

section SameModulus

variable {c c' : Params} (hP : c.P = c'.P)
include hP

/-! The field operations read no parameter but the modulus. -/

theorem fadd_congr : fadd c = fadd c' := by unfold fadd; rw [hP]
theorem fmul_congr : fmul c = fmul c' := by unfold fmul; rw [hP]
theorem fexp_congr : fexp c = fexp c' := by unfold fexp; rw [hP]
theorem sbox_congr : sbox c = sbox c' := by unfold sbox; rw [fexp_congr hP]
theorem isbox_congr : isbox c = isbox c' := by unfold isbox; rw [fexp_congr hP, hP]

theorem fsum_congr {f g : Nat → Lane} : ∀ {n : Nat}, (∀ j < n, f j = g j) → fsum c f n = fsum c' g n
  | 0, _ => rfl
  | n + 1, h => by
    rw [fsum, fsum, fadd_congr hP, fsum_congr fun j hj => h j (Nat.lt_succ_of_lt hj), h n (Nat.lt_succ_self n)]

theorem sboxAll_congr (w : Nat) : sboxAll c w = sboxAll c' w := by unfold sboxAll; rw [sbox_congr hP]
theorem sboxLast_congr : sboxLast c = sboxLast c' := by unfold sboxLast; rw [sbox_congr hP]
theorem isboxAll_congr (w : Nat) : isboxAll c w = isboxAll c' w := by unfold isboxAll; rw [isbox_congr hP]

/-- `ark_flat` reads the six entries of its slice (R120). -/
theorem arkFlat_congr {t t' : List Lane} {s : Nat} (h : ∀ l < 6, romAt t (6 * s + l) = romAt t' (6 * s + l)) :
    arkFlat c t s = arkFlat c' t' s :=
  funext fun S => layer_congr (fun l hl => by rw [fadd_congr hP, h l hl]) S

/-- `ark_2d` reads `W` entries of one column (R121). -/
theorem ark2d_congr (hW : c.W = c'.W) {off col : Nat}
    (h : ∀ l < c.W, matAt c.arkW (off + l) col = matAt c'.arkW (off + l) col) : ark2d c off col = ark2d c' off col :=
  funext fun S => by
    unfold ark2d
    rw [← hW]
    exact layer_congr (fun l hl => by rw [fadd_congr hP, h l hl]) S

/-- The matrix multiplier reads `w` by `w` entries (R124). -/
theorem mds_congr {m m' : List (List Lane)} {w : Nat} (h : ∀ i < w, ∀ j < w, matAt m i j = matAt m' i j) :
    mds c m w = mds c' m' w :=
  funext fun S => layer_congr (fun i hi => fsum_congr hP fun j hj => by rw [fmul_congr hP, h i hi j hj]) S

/-- `feistel_step` reads one entry (R130). -/
theorem feistelStep_congr {r : Nat} (h : romAt c.rcF r = romAt c'.rcF r) : feistelStep c r = feistelStep c' r := by
  unfold feistelStep
  rw [fadd_congr hP, sbox_congr hP, h]

end SameModulus

section RomsAgree

variable {c c' : Params} (h : RomsAgree c c')
include h

theorem RomsAgree.spreadRound {r : Nat} (hr : r < 91) : spreadRound c r = spreadRound c' r := by
  unfold Machine.spreadRound
  rw [arkFlat_congr h.P fun l hl => h.tS _ (by omega), mds_congr (w := Config.wf) h.P h.mdsS,
    sboxAll_congr h.P, sboxLast_congr h.P]

/-- The slices of T_R the prologue and the rounds name are those below `2 N_RESCUE + 1` (R60, C3). -/
theorem RomsAgree.arkFlat_tR {s : Nat} (hs : s < 2 * c.nRescue + 1) : arkFlat c c.tR s = arkFlat c' c'.tR s :=
  arkFlat_congr h.P fun l hl => h.tR _ (by omega)

theorem RomsAgree.rescueRound {k : Nat} (hk : k < c.nRescue) : rescueRound c k = rescueRound c' k := by
  unfold Machine.rescueRound
  rw [h.arkFlat_tR (by omega : 2 * k + 1 < _), h.arkFlat_tR (by omega : 2 * k + 2 < _),
    mds_congr (w := Config.wf) h.P h.mdsR, sboxAll_congr h.P, isboxAll_congr h.P]

/-- The two row blocks of ARK_W start at 0 and at `W` (R60, R163). -/
theorem RomsAgree.ark2d {off col : Nat} (hoff : off ≤ c.W) (hcol : col < c.C) : ark2d c off col = ark2d c' off col :=
  ark2d_congr h.P h.W fun l hl => h.arkW _ (by omega) col hcol

theorem RomsAgree.spongeRound (hC : 1 ≤ c.C) (i : Nat) : spongeRound c i = spongeRound c' i := by
  have hcol : i % c.C < c.C := Nat.mod_lt i hC
  unfold Machine.spongeRound
  rw [h.ark2d (Nat.zero_le _) hcol, h.ark2d le_rfl hcol, mds_congr h.P h.mdsW, sboxAll_congr h.P, isboxAll_congr h.P,
    h.W, h.C]

/-- A round below the round count reads only entries R60 lists. -/
theorem RomsAgree.roundLanes (hC : 1 ≤ c.C) {i : Instr} {r : Nat} (hr : r < roundCount c i) :
    roundLanes c i r = roundLanes c' i r := by
  unfold Machine.roundLanes
  cases i with
  | hspread => exact h.spreadRound hr
  | hrescue => exact h.rescueRound hr
  | hfeistel => exact feistelStep_congr h.P (h.rcF r hr)
  | sdigest => exact h.spongeRound hC r
  | invmds =>
    unfold invmdsRound mdsInv
    rw [mds_congr h.P h.mdsWInv, h.W]

/-- Of the loads only HRESCUE's prologue reads a ROM (R144). -/
theorem RomsAgree.loadedLanes (i : Instr) (buf : Memory) (n : Nat) : loadedLanes c i buf n = loadedLanes c' i buf n := by
  cases i with
  | hspread | hfeistel | invmds => rfl
  | hrescue => exact congrFun (h.arkFlat_tR (Nat.succ_pos _)) _
  | sdigest => exact congrArg (reverseLanes · _) h.W

theorem RomsAgree.finalLanes (i : Instr) (S : Lanes) : finalLanes c i S = finalLanes c' i S := by
  cases i with
  | hspread | hrescue | hfeistel | invmds => rfl
  | sdigest => exact congrArg (reverseLanes · S) h.W

end RomsAgree

/-- Settles O38: R6 gives the tables their sizes, and each layer is given by the entries it reads. -/
theorem romAddressesAreInBounds : Obligations.RomAddressesAreInBounds :=
  ⟨fun _ h => ⟨h.tS_len, h.tR_len, h.rcF_len.ge, hasEntries_of_matrixShape h.arkW, hasEntries_of_matrixShape h.mdsS,
    hasEntries_of_matrixShape h.mdsR, hasEntries_of_matrixShape h.mdsW, hasEntries_of_matrixShape h.mdsWInv⟩,
   fun _ _ hC h i => ⟨fun _ S hr => congrFun (h.roundLanes hC hr) S, h.loadedLanes i, h.finalLanes i⟩⟩

/-! ## One step under a host access (R50 to R55) -/

theorem step_cons {s : State} {e : Event} {rest : List Event} (h : s.pending = e :: rest) :
    step s = onEvent Config.params exec e { s with pending := rest } := by
  rw [step, machineStep, State.move_cons h, h, List.tail_cons]

theorem windowOffset_inside (c : Params) {off : Nat} (h : off < 0x400) : windowOffset c (c.base + off) = some off := by
  rw [windowOffset, if_pos ⟨Nat.le_add_right _ _, Nat.add_lt_add_left h _⟩, Nat.add_sub_cancel_left]

theorem windowOffset_outside {c : Params} {addr : Nat} (h : ¬ (c.base ≤ addr ∧ addr < c.base + 0x400)) :
    windowOffset c addr = none := if_neg h

/-- Settles O43: both moves are the same host access, and an address outside the window has no offset. -/
theorem platformAddressesReachTheWindow : Obligations.PlatformAddressesReachTheWindow := by
  intro s addr bytes op rest h
  rw [step_cons h, onEvent]
  constructor
  · intro off haddr hoff
    rw [haddr, windowOffset_inside _ hoff, step_cons rfl, onEvent]
  · intro hout
    rw [windowOffset_outside hout]

section HostAccess

variable (c : Params) (ex : Instr → State → Host.Outcome State Fault Refusal) {s : State}

theorem hostAccess_malformed {a : Access} (hr : s.resetIn = false) (hin : a.off < 0x400)
    (hwf : ¬ (a.bytes = 4 ∧ a.off % 4 = 0)) : hostAccess c ex a s = .next (s.answer .busError) := by
  have inside : ¬ windowSize ≤ a.off := not_le.2 hin
  rw [hostAccess, if_neg inside, hr, if_neg Bool.false_ne_true, if_neg fun h => hwf ((Access.wellFormed_iff a).1 h)]

variable {off : Nat} (hr : s.resetIn = false) (hin : off < 0x400) (h4 : off % 4 = 0)
include hr hin h4

theorem hostAccess_read : hostAccess c ex { off := off, bytes := 4, op := .read } s = .next (hostRead c off s) := by
  have inside : ¬ windowSize ≤ off := not_le.2 hin
  rw [hostAccess, if_neg inside, hr, if_neg Bool.false_ne_true, if_pos ((Access.wellFormed_iff _).2 ⟨rfl, h4⟩)]

theorem hostAccess_write (v : Word) :
    hostAccess c ex { off := off, bytes := 4, op := .write v } s = hostWrite ex off v s := by
  have inside : ¬ windowSize ≤ off := not_le.2 hin
  rw [hostAccess, if_neg inside, hr, if_neg Bool.false_ne_true, if_pos ((Access.wellFormed_iff _).2 ⟨rfl, h4⟩)]

end HostAccess

/-- A step whose next event is an access of the window, reset released, makes that access. -/
theorem NextAccess.step_eq {s : State} {a : Access} {rest : List Event} (h : NextAccess a rest s) :
    step s = hostAccess Config.params exec a { s with pending := rest } := by
  rw [step_cons h.next, onEvent]

theorem NextAccess.step_malformed {s : State} {a : Access} {rest : List Event} (h : NextAccess a rest s)
    (hwf : ¬ (a.bytes = 4 ∧ a.off % 4 = 0)) : step s = .next (State.answer { s with pending := rest } .busError) :=
  h.step_eq.trans (hostAccess_malformed _ _ h.released h.inside hwf)

theorem NextAccess.step_read {s : State} {off : Nat} {rest : List Event}
    (h : NextAccess { off := off, bytes := 4, op := .read } rest s) (h4 : off % 4 = 0) :
    step s = .next (hostRead Config.params off { s with pending := rest }) :=
  h.step_eq.trans (hostAccess_read _ _ (s := { s with pending := rest }) h.released h.inside h4)

theorem NextAccess.step_write {s : State} {off : Nat} {v : Word} {rest : List Event}
    (h : NextAccess { off := off, bytes := 4, op := .write v } rest s) (h4 : off % 4 = 0) :
    step s = hostWrite exec off v { s with pending := rest } :=
  h.step_eq.trans (hostAccess_write _ _ (s := { s with pending := rest }) h.released h.inside h4 v)

/-! ## The values a read gives (R26, R31, R32, R52, R56) -/

theorem toNat_append_eq_add {m n : Nat} (x : BitVec m) (y : BitVec n) : (x ++ y).toNat = x.toNat * 2 ^ n + y.toNat := by
  rw [BitVec.toNat_append, ← Nat.shiftLeft_add_eq_or_of_lt y.isLt, Nat.shiftLeft_eq]

theorem statusWord_toNat (s : State) : (statusWord s).toNat = statusValue s := by
  have flag (b : Bool) (n : Nat) : (if b then n else 0) = b.toNat * n := by cases b <;> simp
  simp only [statusWord, statusValue, toNat_append_eq_add, BitVec.toNat_ofBool, BitVec.toNat_ofNat, flag]
  omega

section Config

variable {c : Params} (h : c.WellFormed)
include h

theorem config0_toNat : (config0 c).toNat = c.W + 2 ^ 8 * c.R + 2 ^ 16 * c.D + 2 ^ 24 * 16 := by
  have hW : c.W ≤ 16 := h.w_le
  have hR := h.r_le
  have hD := h.d_le
  simp only [config0, toNat_append_eq_add, BitVec.toNat_ofNat, Config.wMax]
  omega

theorem config1_toNat : (config1 c).toNat = c.N + 2 ^ 16 * c.C := by
  have hN := h.n_le
  have hC := h.c_le
  simp only [config1, toNat_append_eq_add, BitVec.toNat_ofNat]
  omega

theorem config2_toNat : (config2 c).toNat = c.nRescue + 2 ^ 16 * c.nFeistel := by
  have hR := h.nRescue
  have hF := h.nFeistel
  simp only [config2, toNat_append_eq_add, BitVec.toNat_ofNat]
  omega

end Config

theorem bufferWord_toNat (buf : Memory) (k : Nat) : (leWord fun j => byteAt buf (k + j)).toNat = bufferWordValue buf k := by
  rw [leWord_toNat, leNat_eq_sum, bufferWordValue]

/-- Consecutive bytes of a word or lane are, little-endian, the bits they span. -/
theorem leNat_extractLsb' {w : Nat} (v : BitVec w) (b n : Nat) :
    leNat (fun j => v.extractLsb' (8 * (b + j)) 8) n = v.toNat / 2 ^ (8 * b) % 2 ^ (8 * n) := by
  induction n with
  | zero => rw [leNat, Nat.mul_zero, pow_zero, Nat.mod_one]
  | succ n ih =>
    rw [leNat, ih, BitVec.extractLsb'_toNat, Nat.shiftRight_eq_div_pow, Nat.mul_add, pow_add, ← Nat.div_div_eq_div_mul,
      Nat.mul_succ, pow_add, Nat.mod_mul, Nat.mul_comm (2 ^ (8 * n))]

/-- An aligned word of the STATE window lies in one lane (R32). -/
theorem stateWord_toNat (S : Lanes) {k : Nat} (hk : k % 4 = 0) :
    (leWord fun j => stateByte S (k + j)).toNat = (laneAt S (k / 16)).toNat / 2 ^ (8 * (k % 16)) % 2 ^ 32 := by
  have sameLane : ∀ j < 4, stateByte S (k + j) = laneByte (laneAt S (k / 16)) (k % 16 + j) := fun j hj => by
    rw [stateByte, show (k + j) / 16 = k / 16 by omega, show (k + j) % 16 = k % 16 + j by omega]
  rw [leWord_toNat, leNat_congr sameLane]
  exact leNat_extractLsb' _ _ 4

/-! ## The read map (R52) -/

/-- A reply is the answer to an entry of R52's table: its number as data, or a bus error. -/
def AnswersEntry (r : Reply) : Option Nat → Prop
  | some n => ∃ w : Word, w.toNat = n ∧ r = .data w
  | none => r = .busError

theorem answersEntry_data {w : Word} {n : Nat} (h : w.toNat = n) : AnswersEntry (.data w) (some n) := ⟨w, h, rfl⟩

theorem answersEntry_shown {w : Word} {n : Nat} (s : State) (h : w.toNat = n) :
    AnswersEntry (s.shown w) (if s.busy then some (Config.draw s.draws).toNat else some n) := by
  unfold State.shown
  cases s.busy with
  | false => exact answersEntry_data h
  | true => exact answersEntry_data rfl

/-- A read is answered by R52's table. -/
theorem readReply_answersEntry {c : Params} (h : c.WellFormed) (s : State) {off : Nat} (h4 : off % 4 = 0)
    (hoff : off < 0x400) : AnswersEntry (readReply c s off) (readValue c s off) := by
  unfold readReply
  split
  · next hr => subst hr; exact answersEntry_data (statusWord_toNat s)
  split
  · next hr => subst hr; exact answersEntry_data rfl
  split
  · next hr => subst hr; exact answersEntry_shown s rfl
  split
  · next hr => subst hr; exact answersEntry_data (config0_toNat h)
  split
  · next hr => subst hr; exact answersEntry_data (config1_toNat h)
  split
  · next hr => subst hr; exact answersEntry_data (config2_toNat h)
  split
  · next hr => subst hr; exact answersEntry_data rfl
  split
  · simp (disch := omega) only [readValue, if_neg, if_pos]
    exact answersEntry_data (bufferWord_toNat _ _)
  split
  · simp (disch := omega) only [readValue, if_neg, if_pos]
    exact answersEntry_shown s (bufferWord_toNat _ _)
  split
  · simp (disch := omega) only [readValue, if_neg, if_pos]
    exact answersEntry_shown s (stateWord_toNat _ (by omega))
  · simp (disch := omega) only [readValue, if_neg]
    rfl

theorem drawnWhileBusy_iff {off : Nat} (hoff : off < 0x400) : drawnWhileBusy off = true ↔ off = 0x00C ∨ 0x200 ≤ off := by
  simp only [drawnWhileBusy, Bool.or_eq_true, Bool.and_eq_true, beq_iff_eq, decide_eq_true_iff]
  omega

/-- An offset whose read is a `draw()` while BUSY has an entry in R52's table. -/
theorem readValue_ne_none {c : Params} {s : State} {off : Nat} (h : off = 0x00C ∨ 0x200 ≤ off) :
    readValue c s off ≠ none := by
  simp (disch := omega) only [readValue, if_neg, if_pos h]
  split
  · exact nofun
  split
  · exact nofun
  split <;> exact nofun

/-- What a read does beside its answer: it takes one `draw()` where it shows one (R52). -/
theorem hostRead_eq (c : Params) (s : State) {off : Nat} (hoff : off < 0x400) :
    hostRead c off s =
      { s with
        replies := readReply c s off :: s.replies
        draws := if s.busy = true ∧ (off = 0x00C ∨ 0x200 ≤ off) then s.draws + 1 else s.draws } := by
  rw [hostRead, if_congr (Bool.and_eq_true_iff.trans (and_congr_right' (drawnWhileBusy_iff hoff))) rfl rfl]
  rfl

/-- Settles O39: a read answers R52's entry and takes a `draw()` where the table has one. -/
theorem readsFollowTheRegisterMap : Obligations.ReadsFollowTheRegisterMap := by
  intro s off rest h4 h
  have hreply : AnswersEntry (readReply Config.params { s with pending := rest } off) (readValue Config.params s off) :=
    readReply_answersEntry Config.params_wellFormed _ h4 h.inside
  rw [h.step_read h4, hostRead_eq _ _ h.inside]
  split
  · next n hn =>
    rw [hn] at hreply
    obtain ⟨w, hw, hr⟩ := hreply
    exact ⟨w, hw, by rw [hr]⟩
  · next hn =>
    have notDrawn : ¬ (s.busy = true ∧ (off = 0x00C ∨ 0x200 ≤ off)) := fun hd => readValue_ne_none hd.2 hn
    rw [hn] at hreply
    rw [show readReply Config.params { s with pending := rest } off = .busError from hreply, if_neg notDrawn]

/-! ## The write map (R53) -/

theorem presentIllegal_eq (s : State) : s.presentIllegal = rejectedFrame (if s.busy then 1#4 else 2#4) s := by
  rw [State.presentIllegal, State.reject, rejectedFrame, apply_ite errCode]
  rfl

section WriteMap

variable (ex : Instr → State → Host.Outcome State Fault Refusal) {v : Word} (s : State)

theorem presentWord_of_ok {i : Instr} (h : decode v = .ok i) : presentWord ex v s = ex i s := by
  rw [presentWord, h]

theorem presentWord_of_error {e : DecodeError} (h : decode v = .error e) :
    presentWord ex v s = .next (rejectedFrame (if s.busy then 1#4 else 2#4) s) := by
  rw [presentWord, h, ← presentIllegal_eq]

variable (v)

theorem writeInlen_eq : writeInlen v s = if s.busy then rejectedFrame 1#4 s else { s with inlen := v } := rfl

theorem hostWrite_cmd : hostWrite ex 0x000 v s = presentWord ex v (s.answer .done) := rfl

theorem hostWrite_inlen : hostWrite ex 0x008 v s = .next (writeInlen v (s.answer .done)) := rfl

theorem hostWrite_inbuf {off : Nat} (h1 : 0x100 ≤ off) (h2 : off < 0x200) :
    hostWrite ex off v s = .next (writeInbuf (off - 0x100) v (s.answer .done)) := by
  simp (disch := omega) only [hostWrite, if_neg, if_pos]

theorem hostWrite_elsewhere {off : Nat} (h0 : off ≠ 0x000) (h8 : off ≠ 0x008) (hin : ¬ (0x100 ≤ off ∧ off < 0x200)) :
    hostWrite ex off v s = .next (s.answer .busError) := by
  simp (disch := omega) only [hostWrite, if_neg]

end WriteMap

/-- The bytes of INBUF after a word is written, as numbers (R53, R56). -/
theorem byteAt_setWord_toNat {m : Memory} (hm : m.wf = true) {k : Nat} (hk : k + 3 < 256) (v : Word) (j : Nat) :
    (byteAt (setWord m k v) j).toNat =
      if k ≤ j ∧ j < k + 4 then v.toNat / 2 ^ (8 * (j - k)) % 256 else (byteAt m j).toNat := by
  rw [byteAt_setWord hm hk]
  split
  · rw [BitVec.extractLsb'_toNat, Nat.shiftRight_eq_div_pow]
  · rfl

section WriteInbuf

variable {s : State} {off : Nat} {v : Word} {rest : List Event}
  (h : NextAccess { off := off, bytes := 4, op := .write v } rest s) (h4 : off % 4 = 0)
  (h1 : 0x100 ≤ off) (h2 : off < 0x200)
include h h4 h1 h2

theorem NextAccess.step_writeInbuf_of_busy (hb : s.busy = true) :
    step s = .next (rejectedFrame 1#4 { s with pending := rest, replies := .done :: s.replies }) := by
  rw [h.step_write h4, hostWrite_inbuf _ _ _ h1 h2]
  exact congrArg Host.Outcome.next (if_pos hb)

theorem NextAccess.step_writeInbuf_of_idle (hb : s.busy = false) :
    step s = .next { s with
      pending := rest
      replies := .done :: s.replies
      inbuf := setWord s.inbuf (off - 0x100) v } := by
  rw [h.step_write h4, hostWrite_inbuf _ _ _ h1 h2]
  exact congrArg Host.Outcome.next (if_neg (ne_true_of_eq_false hb))

end WriteInbuf

/-- Settles O40: the four rows of R53's table, one by one. -/
theorem writesFollowTheRegisterMap : Obligations.WritesFollowTheRegisterMap := by
  intro s off v rest h4 ⟨hinbuf, _⟩ h
  have hstep := h.step_write h4
  dsimp only
  split
  · next h0 =>
    subst h0
    rw [hstep, hostWrite_cmd]
    cases hd : decode v with
    | ok i => rw [presentWord_of_ok _ _ hd]; rfl
    | error e => rw [presentWord_of_error _ _ hd]; rfl
  split
  · next h8 =>
    subst h8
    rw [hstep, hostWrite_inlen, writeInlen_eq]
    rfl
  split
  · next hin =>
    obtain ⟨h1, h2⟩ := hin
    split
    · next hb => exact h.step_writeInbuf_of_busy h4 h1 h2 hb
    · next hb =>
      have hk : off - 0x100 + 3 < 256 := by omega
      exact ⟨_, h.step_writeInbuf_of_idle h4 h1 h2 (eq_false_of_ne_true hb), wf_setWord hinbuf hk v,
        byteAt_setWord_toNat hinbuf hk v⟩
  · next h0 h8 hin => rw [hstep, hostWrite_elsewhere _ _ _ h0 h8 hin]; rfl

/-! ## Bus errors (R54, R55, R207) -/

/-- R52's table has no entry for CMD and the reserved offsets. -/
theorem readValue_reserved {c : Params} {s : State} {off : Nat} (h : off = 0x000 ∨ (0x020 ≤ off ∧ off < 0x100)) :
    readValue c s off = none := by
  simp (disch := omega) only [readValue, if_neg]

/-- Settles O41: a malformed access is answered before the window is looked at, and neither map has an entry for the others. -/
theorem busErrorsChangeNothing : Obligations.BusErrorsChangeNothing := by
  rintro s ⟨off, bytes, op⟩ rest h hbad
  by_cases hwf : bytes = 4 ∧ off % 4 = 0
  · obtain ⟨rfl, h4⟩ := hwf
    have hoff := (hbad.resolve_left (not_not.2 rfl)).resolve_left (not_not.2 h4)
    cases op with
    | read =>
      have hread := readsFollowTheRegisterMap s off rest h4 h
      rwa [readValue_reserved hoff] at hread
    | write v =>
      dsimp only at hoff
      rw [h.step_write h4, hostWrite_elsewhere _ _ _ (by omega) (by omega) (by omega)]
      rfl
  · rw [h.step_malformed hwf]
    rfl

/-! ## Reading INBUF back (R27, R56, R62) -/

/-- The four bytes of a word written to a buffer make the word again. -/
theorem leWord_byteAt_setWord {m : Memory} (hm : m.wf = true) {k : Nat} (hk : k + 3 < 256) (v : Word) :
    (leWord fun j => byteAt (setWord m k v) (k + j)) = v := by
  have written : ∀ j < 4, byteAt (setWord m k v) (k + j) = v.extractLsb' (8 * (0 + j)) 8 := fun j hj => by
    rw [byteAt_setWord hm hk, if_pos (by omega), show k + j - k = 0 + j by omega]
  apply BitVec.eq_of_toNat_eq
  rw [leWord_toNat, leNat_congr written, leNat_extractLsb', Nat.mul_zero, pow_zero, Nat.div_one]
  exact Nat.mod_eq_of_lt v.isLt

theorem readReply_inbuf (c : Params) (s : State) {off : Nat} (h1 : 0x100 ≤ off) (h2 : off < 0x200) :
    readReply c s off = .data (leWord fun j => byteAt s.inbuf (off - 0x100 + j)) := by
  simp (disch := omega) only [readReply, if_neg, if_pos]

theorem run_succ_of_next {M : Host.Core} {s t : M.State} (h : M.step s = .next t) (k : Nat) :
    M.run (k + 1) s = M.run k t := by
  rw [Host.Core.run, h]

theorem run_core_succ {s t : State} (h : step s = .next t) (k : Nat) :
    Host.Core.run core (k + 1) s = Host.Core.run core k t :=
  run_succ_of_next (M := core) h k

/-- Settles O42: the write leaves the word's bytes in INBUF, and the read puts those four bytes together again. -/
theorem inbufReadsBackWhatWasWritten : Obligations.InbufReadsBackWhatWasWritten := by
  intro s off v rest hb hr ⟨hinbuf, _⟩ h4 h1 h2 hp
  have hk : off - 0x100 + 3 < 256 := by omega
  have inside : off < 0x400 := by omega
  have hwrite := NextAccess.step_writeInbuf_of_idle ⟨hp, hr, inside⟩ h4 h1 h2 hb
  have hread := NextAccess.step_read (s := { s with
    pending := .access { off := off, bytes := 4, op := .read } :: rest
    replies := .done :: s.replies
    inbuf := setWord s.inbuf (off - 0x100) v }) ⟨rfl, hr, inside⟩ h4
  refine ⟨_, (run_core_succ hwrite 1).trans (run_core_succ hread 0), rfl, ?_⟩
  rw [hostRead_replies, readReply_inbuf _ _ h1 h2, leWord_byteAt_setWord hinbuf hk]

end Sys2Proof.Machine

namespace Sys2Proof

/-! ## Which words are commands (R81, R84 to R86) -/

theorem cmdFields_rsv_toNat (v : Word) : (cmdFields v).rsv.toNat = v.toNat / 16 := by
  have hlt : v.toNat / 2 ^ 4 < 2 ^ 28 := Nat.div_lt_of_lt_mul v.isLt
  exact (BitVec.extractLsb'_toNat 4 28 v).trans
    ((congrArg (· % 2 ^ 28) (Nat.shiftRight_eq_div_pow v.toNat 4)).trans (Nat.mod_eq_of_lt hlt))

theorem cmdFields_op_toNat (v : Word) : (cmdFields v).op.toNat = v.toNat % 16 := BitVec.extractLsb'_toNat 0 4 v

theorem cmdFields_rsv_eq_zero_iff (v : Word) : (cmdFields v).rsv = 0#28 ↔ v.toNat / 16 = 0 := by
  rw [← BitVec.toNat_inj, cmdFields_rsv_toNat, BitVec.toNat_zero]

theorem opInstr_eq_none_iff (op : BitVec 4) : opInstr op = none ↔ op.toNat = 0 ∨ 5 < op.toNat := by
  revert op; decide

/-- Bits 3:0 of a word select no command exactly where R84's map has a reserved entry. -/
theorem opInstr_cmdFields_eq_none_iff (v : Word) :
    opInstr (cmdFields v).op = none ↔ v.toNat % 16 = 0 ∨ 5 < v.toNat % 16 := by
  rw [opInstr_eq_none_iff, cmdFields_op_toNat]

/-! R86 branch by branch. -/

theorem decode_eq_reservedBits {v : Word} (hrsv : v.toNat / 16 ≠ 0) : decode v = .error .reservedBits := by
  rw [decode, if_pos (mt (cmdFields_rsv_eq_zero_iff v).1 hrsv)]

theorem decode_eq_reservedOp {v : Word} (hrsv : v.toNat / 16 = 0) (hop : v.toNat % 16 = 0 ∨ 5 < v.toNat % 16) :
    decode v = .error .reservedOp := by
  rw [decode, if_neg (not_not.2 ((cmdFields_rsv_eq_zero_iff v).2 hrsv)), (opInstr_cmdFields_eq_none_iff v).2 hop]

theorem exists_decode_eq_ok {v : Word} (hrsv : v.toNat / 16 = 0) (hop : ¬ (v.toNat % 16 = 0 ∨ 5 < v.toNat % 16)) :
    ∃ i, decode v = .ok i := by
  obtain ⟨i, hi⟩ := Option.ne_none_iff_exists'.1 (mt (opInstr_cmdFields_eq_none_iff v).1 hop)
  exact ⟨i, by rw [decode, if_neg (not_not.2 ((cmdFields_rsv_eq_zero_iff v).2 hrsv)), hi]⟩

/-- The illegal words of R85. -/
theorem exists_decode_eq_error_iff (v : Word) :
    (∃ e, decode v = .error e) ↔ v.toNat / 16 ≠ 0 ∨ v.toNat % 16 = 0 ∨ 5 < v.toNat % 16 := by
  by_cases hrsv : v.toNat / 16 = 0
  · by_cases hop : v.toNat % 16 = 0 ∨ 5 < v.toNat % 16
    · exact iff_of_true ⟨_, decode_eq_reservedOp hrsv hop⟩ (.inr hop)
    · obtain ⟨i, hi⟩ := exists_decode_eq_ok hrsv hop
      refine iff_of_false (fun ⟨e, he⟩ => ?_) (not_or.2 ⟨not_not.2 hrsv, hop⟩)
      rw [hi] at he
      cases he
  · exact iff_of_true ⟨_, decode_eq_reservedBits hrsv⟩ (.inl hrsv)

/-- Settles O7: decoding inverts encoding, and R86's branches are told apart by the word's two fields as numbers. -/
theorem decodeAcceptsExactlyTheFiveWords : Obligations.DecodeAcceptsExactlyTheFiveWords := fun v =>
  ⟨decode_eq_ok_iff v, exists_decode_eq_error_iff v⟩

/-- Settles O6: the five words are the encodings of the five commands, and each of the others falls in a reserved case. -/
theorem writtenOutWordsDecode : Obligations.WrittenOutWordsDecode :=
  ⟨decode_encode .hspread, decode_encode .hrescue, decode_encode .hfeistel, decode_encode .sdigest, decode_encode .invmds,
    decode_eq_reservedOp rfl (.inl rfl), decode_eq_reservedOp rfl (.inr (by decide)),
    decode_eq_reservedOp rfl (.inr (by decide)), decode_eq_reservedBits (by decide), decode_eq_reservedBits (by decide)⟩

end Sys2Proof

namespace Sys2Proof.Machine

/-! ## A word that is no command (R85, R201, R203) -/

theorem NextAccess.step_illegalWord {s : State} {v : Word} {rest : List Event} {e : DecodeError}
    (h : NextAccess { off := 0x000, bytes := 4, op := .write v } rest s) (he : decode v = .error e) :
    step s = .next (rejectedFrame (if s.busy then 1#4 else 2#4)
      { s with pending := rest, replies := .done :: s.replies }) := by
  rw [h.step_write rfl, hostWrite_cmd, presentWord_of_error _ _ he]
  rfl

/-- Settles O10: an illegal word is one that decodes to an error, and every other word decodes to the command it encodes. -/
theorem illegalWordIsRejected : Obligations.IllegalWordIsRejected := by
  refine fun v => ⟨fun hillegal s rest h => ?_, fun hlegal => ?_⟩
  · obtain ⟨e, he⟩ := (exists_decode_eq_error_iff v).2 hillegal
    exact h.step_illegalWord he
  · obtain ⟨hrsv, hop⟩ := not_or.1 hlegal
    obtain ⟨i, hi⟩ := exists_decode_eq_ok (not_not.1 hrsv) hop
    exact ⟨i, eq_encode_of_decode hi, hi⟩

end Sys2Proof.Machine

namespace Sys2Proof.Machine

/-! ## The field operations of canonical lanes (R103 to R110) -/

section FieldLanes

variable {c : Params} (h : c.WellFormed)
include h

theorem fmul_lt (a b : Lane) : (fmul c a b).toNat < c.P := by
  rw [fmul_toNat h]
  exact Nat.mod_lt _ h.pos

theorem toNat_ofNat_of_lt {n : Nat} (hn : n < c.P) : (BitVec.ofNat 128 n).toNat = n := by
  rw [BitVec.toNat_ofNat, Nat.mod_eq_of_lt (hn.trans h.lt_lane)]

/-- A canonical lane is the one written `n` when both are the same field element. -/
theorem lane_eq_ofNat {a : Lane} {n : Nat} (ha : a.toNat < c.P) (hn : n < c.P) (heq : (a.toNat : ZMod c.P) = n) :
    a = BitVec.ofNat 128 n := by
  have hlit := toNat_ofNat_of_lt h hn
  exact lane_ext_cast ha (hlit.symm ▸ hn) (hlit.symm ▸ heq)

theorem lt_of_eq_pred {m : Lane} (hm : m.toNat = c.P - 1) : m.toNat < c.P := hm ▸ Nat.pred_lt h.pos.ne'

/-- The lane `P - 1` is the field's -1. -/
theorem cast_of_eq_pred {m : Lane} (hm : m.toNat = c.P - 1) : (m.toNat : ZMod c.P) = -1 := by
  rw [hm, Nat.cast_pred h.pos, CharP.cast_eq_zero, zero_sub]

/-! Addition and multiplication (R103, R104). -/

/-- R103's single wrap. -/
theorem fadd_toNat_of_lt {a b : Lane} (ha : a.toNat < c.P) (hb : b.toNat < c.P) :
    (fadd c a b).toNat = if c.P ≤ a.toNat + b.toNat then a.toNat + b.toNat - c.P else a.toNat + b.toNat := by
  rw [fadd_toNat h, Nat.add_mod_eq_ite, Nat.mod_eq_of_lt ha, Nat.mod_eq_of_lt hb]

theorem fadd_zero {a : Lane} (ha : a.toNat < c.P) : fadd c a 0#128 = a :=
  lane_ext_cast (fadd_lt h _ _) ha (by simp [fadd_cast h])

theorem fadd_pred_pred {m : Lane} (hm : m.toNat = c.P - 1) : (fadd c m m).toNat = c.P - 2 := by
  have hp := h.three_lt
  rw [fadd_toNat_of_lt h (lt_of_eq_pred h hm) (lt_of_eq_pred h hm), if_pos (by omega)]
  omega

theorem fmul_one {a : Lane} (ha : a.toNat < c.P) : fmul c a 1#128 = a :=
  lane_ext_cast (fmul_lt h _ _) ha (by simp [fmul_cast h])

theorem fmul_zero (a : Lane) : fmul c a 0#128 = 0#128 :=
  lane_eq_ofNat h (fmul_lt h _ _) h.pos (by simp [fmul_cast h])

theorem fmul_two (a : Lane) : fmul c a 2#128 = fadd c a a :=
  lane_ext_cast (fmul_lt h _ _) (fadd_lt h _ _) (by simp [fmul_cast h, fadd_cast h, mul_two])

/-! The order of a sum (R110). -/

theorem fadd_right_comm (a b d : Lane) : fadd c (fadd c a b) d = fadd c (fadd c a d) b :=
  lane_ext_cast (fadd_lt h _ _) (fadd_lt h _ _) (by simp only [fadd_cast h, add_right_comm])

theorem fmul_fadd (m a b : Lane) : fmul c m (fadd c a b) = fadd c (fmul c m a) (fmul c m b) :=
  lane_ext_cast (fmul_lt h _ _) (fadd_lt h _ _) (by simp only [fadd_cast h, fmul_cast h, mul_add])

theorem foldl_fadd_perm {xs ys : List Lane} (hperm : xs.Perm ys) (z : Lane) :
    xs.foldl (fadd c) z = ys.foldl (fadd c) z :=
  hperm.foldl_eq (rcomm := ⟨fadd_right_comm h⟩) z

/-- The multiplier is applied to the running sum at every step of the fold. -/
theorem fmul_foldl_fadd (m z : Lane) (xs : List Lane) :
    fmul c m (xs.foldl (fadd c) z) = (xs.map (fmul c m)).foldl (fadd c) (fmul c m z) :=
  (List.foldl_map_hom fun a b => (fmul_fadd h m a b).symm).symm

/-! Powers and the S-box (R105, R106). -/

theorem fexp_one {b : Lane} (hb : b.toNat < c.P) : fexp c b 1 = b :=
  lane_ext_cast (fexp_lt h _ _) hb (by rw [fexp_cast h, pow_one])

theorem fexp_add (b : Lane) (d e : Nat) : fexp c b (d + e) = fmul c (fexp c b d) (fexp c b e) :=
  lane_ext_cast (fexp_lt h _ _) (fmul_lt h _ _) (by simp only [fmul_cast h, fexp_cast h, pow_add])

theorem fexp_zero_base {e : Nat} (he : e ≠ 0) : fexp c 0#128 e = 0#128 :=
  lane_eq_ofNat h (fexp_lt h _ _) h.pos (by simp [fexp_cast h, he])

theorem fexp_one_base (e : Nat) : fexp c 1#128 e = 1#128 :=
  lane_eq_ofNat h (fexp_lt h _ _) h.prime.one_lt (by simp [fexp_cast h])

theorem sbox_lt (x : Lane) : (sbox c x).toNat < c.P := fexp_lt h _ _

theorem sbox_cast (x : Lane) : ((sbox c x).toNat : ZMod c.P) = (x.toNat : ZMod c.P) ^ 3 := fexp_cast h x 3

/-- A number whose cube needs no reduction is sent to that cube. -/
theorem sbox_ofNat {n : Nat} (hn : n ^ 3 < c.P) : sbox c (BitVec.ofNat 128 n) = BitVec.ofNat 128 (n ^ 3) := by
  have hlit := toNat_ofNat_of_lt h ((Nat.le_self_pow three_ne_zero n).trans_lt hn)
  exact lane_eq_ofNat h (sbox_lt h _) hn (by rw [sbox_cast h, hlit, Nat.cast_pow])

theorem sbox_eq_fmul (x : Lane) : sbox c x = fmul c (fmul c x x) x :=
  lane_ext_cast (sbox_lt h _) (fmul_lt h _ _) (by simp only [sbox_cast h, fmul_cast h, pow_three'])

theorem sbox_pred {m : Lane} (hm : m.toNat = c.P - 1) : sbox c m = m :=
  lane_ext_cast (sbox_lt h _) (lt_of_eq_pred h hm) (by rw [sbox_cast h, cast_of_eq_pred h hm, Odd.neg_one_pow (by decide)])

/-! ALPHA_INV (R101, R108), and the two S-boxes undo each other (R109). -/

theorem three_mul_alphaInv : 3 * alphaInv c.P = 2 * (c.P - 1) + 1 := by
  have hmod := h.mod_three
  unfold alphaInv
  omega

theorem coprime_pred_three : (c.P - 1).Coprime 3 := by
  have hmod := h.mod_three
  exact (Nat.prime_three.coprime_iff_not_dvd.2 (by omega)).symm

/-- Fermat: `x ^ (2 * (P - 1) + 1) = x`. -/
theorem pow_three_mul_alphaInv (x : ZMod c.P) : x ^ (3 * alphaInv c.P) = x := by
  have : Fact c.P.Prime := ⟨h.prime⟩
  have hexp : 3 * alphaInv c.P = c.P + (c.P - 1) := by
    have hpos := h.pos
    rw [three_mul_alphaInv h]
    omega
  rw [hexp, pow_add, ZMod.pow_card, mul_pow_sub_one h.pos.ne', ZMod.pow_card]

theorem isbox_cast (x : Lane) : ((isbox c x).toNat : ZMod c.P) = (x.toNat : ZMod c.P) ^ alphaInv c.P := fexp_cast h _ _

theorem isbox_sbox {x : Lane} (hx : x.toNat < c.P) : isbox c (sbox c x) = x :=
  lane_ext_cast (fexp_lt h _ _) hx (by rw [isbox_cast h, sbox_cast h, ← pow_mul, pow_three_mul_alphaInv h])

theorem sbox_isbox {x : Lane} (hx : x.toNat < c.P) : sbox c (isbox c x) = x :=
  lane_ext_cast (sbox_lt h _) hx (by rw [sbox_cast h, isbox_cast h, ← pow_mul, mul_comm, pow_three_mul_alphaInv h])

/-- What `sbox` sends to `y`, `isbox` gives back: R107's corner cases are R106's. -/
theorem isbox_eq_of_sbox_eq {x y : Lane} (hx : x.toNat < c.P) (hxy : sbox c x = y) : isbox c y = x :=
  hxy ▸ isbox_sbox h hx

theorem isbox_ofNat_pow_three {n : Nat} (hn : n ^ 3 < c.P) :
    isbox c (BitVec.ofNat 128 (n ^ 3)) = BitVec.ofNat 128 n := by
  have hlt : n < c.P := (Nat.le_self_pow three_ne_zero n).trans_lt hn
  exact isbox_eq_of_sbox_eq h ((toNat_ofNat_of_lt h hlt).symm ▸ hlt) (sbox_ofNat h hn)

theorem three_mul_mod_pred_eq_one_iff (e : Nat) :
    (1 ≤ e ∧ e < c.P - 1 ∧ 3 * e % (c.P - 1) = 1) ↔ e = alphaInv c.P := by
  have hmul := three_mul_alphaInv h
  have hp := h.three_lt
  have hlt : alphaInv c.P < c.P - 1 := by omega
  have hmod : 3 * alphaInv c.P % (c.P - 1) = 1 := by
    rw [hmul, Nat.mul_add_mod', Nat.mod_eq_of_lt (by omega)]
  constructor
  · rintro ⟨-, helt, hemod⟩
    have hcong : e ≡ alphaInv c.P [MOD c.P - 1] :=
      Nat.ModEq.cancel_left_of_coprime (coprime_pred_three h) (hemod.trans hmod.symm)
    exact hcong.eq_of_lt_of_lt helt hlt
  · rintro rfl
    exact ⟨by omega, hlt, hmod⟩

end FieldLanes

/-- Settles O28: canonical addends wrap at most once, and the lane `P - 1` is the field's -1. -/
theorem faddIsExactModularAddition : Obligations.FaddIsExactModularAddition := by
  refine fun c h => ⟨fun a b ha hb => ⟨fadd_toNat h a b, fadd_toNat_of_lt h ha hb⟩, fun _ => fadd_zero h, fun m hm => ?_⟩
  have hneg := cast_of_eq_pred h hm
  exact ⟨lane_eq_ofNat h (fadd_lt h _ _) h.pos (by simp [fadd_cast h, hneg]),
    fadd_pred_pred h hm,
    lane_eq_ofNat h (fadd_lt h _ _) h.prime.one_lt (by norm_num [fadd_cast h, hneg])⟩

/-- Settles O29: the lane `P - 1` is the field's -1, and twice a lane is its sum with itself. -/
theorem fmulIsExactModularMultiplication : Obligations.FmulIsExactModularMultiplication := by
  refine fun c h => ⟨fun a b _ _ => fmul_toNat h a b, fun a ha => ⟨fmul_zero h a, fmul_one h ha⟩, fun m hm => ⟨?_, ?_⟩⟩
  · exact lane_eq_ofNat h (fmul_lt h _ _) h.prime.one_lt (by simp [fmul_cast h, cast_of_eq_pred h hm])
  · rw [fmul_two h, fadd_pred_pred h hm]

/-- Settles O30: the laws of powers in the field, read back on canonical lanes. -/
theorem fexpIsTheExactPower : Obligations.FexpIsTheExactPower := fun _ h =>
  ⟨fun b e _ _ => fexp_toNat h b e, fun _ => fexp_one h, fun b d e _ _ _ => fexp_add h b d e,
    fun e he => ⟨fexp_zero_base h (Nat.one_le_iff_ne_zero.1 he), fexp_one_base h e⟩, fun h8 => sbox_ofNat h (n := 2) h8⟩

/-- Settles O31: `sbox` is the cube in the field, so it fixes 0, 1 and -1. -/
theorem sboxIsTheCube : Obligations.SboxIsTheCube := fun _ h =>
  ⟨fun x _ => ⟨sbox_eq_fmul h x, fexp_toNat h x 3⟩, sbox_ofNat h (n := 0) h.pos, sbox_ofNat h (n := 1) h.prime.one_lt,
    fun _ => sbox_pred h, fun h8 => sbox_ofNat h (n := 2) h8, fun h125 => sbox_ofNat h (n := 5) h125⟩

/-- Settles O32: `3 * alphaInv P = 2 * (P - 1) + 1`, and 3 can be cancelled modulo `P - 1` because `P mod 3 = 2`. -/
theorem alphaInvIsTheInverseOfThree : Obligations.AlphaInvIsTheInverseOfThree := fun _ h => three_mul_mod_pred_eq_one_iff h

/-- Settles O33: in the field `x ^ (3 * ALPHA_INV) = x`, and the corner cases of `isbox` are those of `sbox` undone. -/
theorem sboxAndIsboxAreInverse : Obligations.SboxAndIsboxAreInverse := fun _ h =>
  ⟨fun x hx => ⟨isbox_sbox h hx, sbox_isbox h hx, fexp_toNat h x _⟩,
    isbox_ofNat_pow_three h (n := 0) h.pos, isbox_ofNat_pow_three h (n := 1) h.prime.one_lt,
    fun _ hm => isbox_eq_of_sbox_eq h (lt_of_eq_pred h hm) (sbox_pred h hm),
    fun h8 => isbox_ofNat_pow_three h (n := 2) h8⟩

/-- Settles O34: `fadd` is right-commutative and `fmul c m` carries one fold into the other; both start from 0. -/
theorem summationOrderIsIrrelevant : Obligations.SummationOrderIsIrrelevant := by
  refine fun c h xs ys m hperm _ => ⟨foldl_fadd_perm h hperm _, ?_⟩
  rw [fmul_foldl_fadd h, fmul_zero h, foldl_fadd_perm h (hperm.map _)]

end Sys2Proof.Machine

namespace Sys2Proof.Machine

/-! ## The layers undone (R125, R127, R129) and the round of INVMDS (R126) -/

section Reversal

variable {w i : Nat} (hw : w ≤ 16)
include hw

theorem laneAt_reverseLanes_of_lt (S : Lanes) (hi : i < w) : laneAt (reverseLanes w S) i = laneAt S (w - 1 - i) := by
  rw [laneAt_reverseLanes hw, if_pos hi]

theorem laneAt_reverseLanes_of_le (S : Lanes) (hi : w ≤ i) : laneAt (reverseLanes w S) i = laneAt S i := by
  rw [laneAt_reverseLanes hw, if_neg hi.not_gt]

theorem reverseLanes_reverseLanes (S : Lanes) : reverseLanes w (reverseLanes w S) = S := by
  refine lanes_ext fun i _ => ?_
  obtain hi | hi := lt_or_ge i w
  · rw [laneAt_reverseLanes_of_lt hw _ hi, laneAt_reverseLanes_of_lt hw _ (by omega)]
    congr 1
    omega
  · rw [laneAt_reverseLanes_of_le hw _ hi, laneAt_reverseLanes_of_le hw _ hi]

end Reversal

/-- Settles O36: `w - 1 - (w - 1 - i) = i` below `w`, and the lanes from `w` on stay. -/
theorem reversalTwiceIsTheIdentity : Obligations.ReversalTwiceIsTheIdentity := fun _ S hw =>
  ⟨fun _ => laneAt_reverseLanes_of_lt hw S, fun _ => laneAt_reverseLanes_of_le hw S, reverseLanes_reverseLanes hw S⟩

/-- Settles O37: lane by lane, `isbox` undoes `sbox` on a field element. -/
theorem inverseSboxLayerUndoesTheForwardOne : Obligations.InverseSboxLayerUndoesTheForwardOne := by
  refine fun c h w S hw hS => lanes_ext fun i _ => ?_
  rw [laneAt_isboxAll c hw, laneAt_sboxAll c hw]
  split
  · next hi => exact isbox_sbox h (hS i hi)
  · rfl

theorem laneAt_mds_of_le (c : Params) (m : List (List Lane)) {w i : Nat} (hw : w ≤ 16) (S : Lanes) (hi : w ≤ i) :
    laneAt (mds c m w S) i = laneAt S i := by
  rw [laneAt_mds c m hw, if_neg hi.not_gt]

/-- The matrix product over the field, with its whole frame (R124). -/
theorem mds_holdsBelow {c : Params} (h : c.WellFormed) (m : List (List Lane)) {w : Nat} (hw : w ≤ 16) (S : Lanes) :
    HoldsBelow c.P w (fieldMds m w (fieldLane c.P S)) S (mds c m w S) :=
  ⟨fun _ hi => ⟨fieldLane_mds h m hw S hi, mds_lt h m hw S hi⟩, fun _ => laneAt_mds_of_le c m hw S⟩

/-- Settles O22: the only round INVMDS has enabled is round 0, and it is the product with the inverse matrix. -/
theorem invmdsRoundFollowsItsRule : Obligations.InvmdsRoundFollowsItsRule := by
  refine fun c h s hs => ⟨mdsInv c s.lanes, ?_, mds_holdsBelow h c.mdsWInv h.w_le s.lanes⟩
  have hround : s.round = 0#32 := BitVec.eq_of_toNat_eq (Nat.lt_one_iff.1 hs.round)
  rw [stepWith_of_roundEnabled hs, State.roundStep, hround]
  rfl

/-! ### The matrix ROMs as matrices over the field -/

/-- The leading `w`×`w` block of a matrix ROM, over the field. -/
def fieldMatrix (P w : Nat) (m : List (List Lane)) : Matrix (Fin w) (Fin w) (ZMod P) :=
  Matrix.of fun i j => ((matAt m i j).toNat : ZMod P)

/-- Lanes `0 .. w-1` as a vector over the field. -/
def fieldVector (P w : Nat) (S : Lanes) : Fin w → ZMod P := fun i => fieldLane P S i

/-- R124: row `i` times the column of old lanes. -/
theorem fieldVector_mds {c : Params} (h : c.WellFormed) (m : List (List Lane)) {w : Nat} (hw : w ≤ 16) (S : Lanes) :
    fieldVector c.P w (mds c m w S) = (fieldMatrix c.P w m).mulVec (fieldVector c.P w S) :=
  funext fun i => (fieldLane_mds h m hw S i.isLt).trans (Finset.sum_range _)

/-- R6's inverse law is a product of matrices. -/
theorem fieldMatrix_mul_eq_one {P w : Nat} {a b : List (List Lane)} (hab : inverseLaw P w a b) :
    fieldMatrix P w a * fieldMatrix P w b = 1 := by
  ext i k
  have hik : ((∑ j ∈ Finset.range w, (matAt a i j).toNat * (matAt b j k).toNat : ℕ) : ZMod P)
      = ((if (i : Nat) = k then 1 else 0 : ℕ) : ZMod P) := (ZMod.natCast_eq_natCast_iff' _ _ P).2 (hab i i.isLt k k.isLt)
  simpa [Matrix.mul_apply, Matrix.one_apply, fieldMatrix, Finset.sum_range, Fin.ext_iff] using hik

/-- A product with a matrix undoes the product with its right inverse, on canonical lanes. -/
theorem mds_mds_of_mul_eq_one {c : Params} (h : c.WellFormed) {m n : List (List Lane)} {w : Nat} (hw : w ≤ 16)
    (hmn : fieldMatrix c.P w m * fieldMatrix c.P w n = 1) {S : Lanes} (hS : ∀ i < w, (laneAt S i).toNat < c.P) :
    mds c m w (mds c n w S) = S := by
  have hvec : fieldVector c.P w (mds c m w (mds c n w S)) = fieldVector c.P w S := by
    rw [fieldVector_mds h m hw, fieldVector_mds h n hw, Matrix.mulVec_mulVec, hmn, Matrix.one_mulVec]
  refine lanes_ext fun i _ => ?_
  obtain hi | hi := lt_or_ge i w
  · exact lane_ext_cast (mds_lt h m hw _ hi) (hS i hi) (congrFun hvec ⟨i, hi⟩)
  · rw [laneAt_mds_of_le c m hw _ hi, laneAt_mds_of_le c n hw S hi]

/-- Settles O35: R6 gives the inverse law on one side, and a one-sided inverse of a square matrix is two-sided. -/
theorem mdsInverseUndoesMds : Obligations.MdsInverseUndoesMds := fun c h _ hS =>
  have hmul : fieldMatrix c.P c.W c.mdsW * fieldMatrix c.P c.W c.mdsWInv = 1 := fieldMatrix_mul_eq_one h.inverse
  ⟨mds_mds_of_mul_eq_one h h.w_le hmul hS, mds_mds_of_mul_eq_one h h.w_le (mul_eq_one_comm.1 hmul) hS⟩

end Sys2Proof.Machine

namespace Sys2Proof.Machine

/-! ## Acceptance of the fixed-width commands (R140, R143, R144, R147, R182) -/

/-- An acceptable command is accepted: STATUS and ROUND as R182 says, the lanes from its load. -/
theorem exec_of_acceptable {i : Instr} {s : State} (h : Acceptable Config.params i s) :
    exec i s = .next (acceptedFrame i s (loadedLanes Config.params i s.inbuf s.inlen.toNat)) := by
  rw [exec_eq_execWith, execWith, presentCommand_of_acceptable h]
  rfl

theorem laneAt_loadFixed_toNat (buf : Memory) (n l : Nat) :
    (laneAt (loadFixed buf n) l).toNat = if l < 6 then loopLane buf l n else 0 := by
  rw [laneAt_loadFixed]
  split
  · exact loadFixedLane_toNat ..
  · rfl

/-- R144: slice 0 of T_R on the freshly loaded lanes. -/
theorem laneAt_rescuePrologue_toNat {c : Params} (h : c.WellFormed) (buf : Memory) (n l : Nat) :
    (laneAt (rescuePrologue c (loadFixed buf n)) l).toNat =
      if l < 6 then (loopLane buf l n + (romAt c.tR l).toNat) % c.P else 0 := by
  rw [rescuePrologue, laneAt_arkFlat]
  split
  · next hl => rw [fadd_toNat h, laneAt_loadFixed_toNat, if_pos hl, Nat.mul_zero, Nat.zero_add]
  · next hl => rw [laneAt_loadFixed_toNat, if_neg hl]

/-- Settles O12: the load of an accepted HSPREAD is `load_fixed`, whose lanes are R87's sums. -/
theorem hspreadAcceptedLoadsItsInput : Obligations.HspreadAcceptedLoadsItsInput := fun s h =>
  ⟨_, exec_of_acceptable h, fun l _ => laneAt_loadFixed_toNat s.inbuf s.inlen.toNat l⟩

/-- Settles O13: the load of an accepted HRESCUE is `load_fixed` and then the prologue. -/
theorem hrescueAcceptedLoadsItsInputAndAddsConstants : Obligations.HrescueAcceptedLoadsItsInputAndAddsConstants :=
  fun s h => ⟨_, exec_of_acceptable h,
    fun l _ => laneAt_rescuePrologue_toNat Config.params_wellFormed s.inbuf s.inlen.toNat l⟩

/-- Settles O14: HFEISTEL loads as HSPREAD does. -/
theorem hfeistelAcceptedLoadsItsInput : Obligations.HfeistelAcceptedLoadsItsInput := fun s h =>
  ⟨_, exec_of_acceptable h, fun l _ => laneAt_loadFixed_toNat s.inbuf s.inlen.toNat l⟩

/-! ## Layers one after another, over the field (R120 to R125) -/

/-- Entries `0 .. w-1` of `F x` depend on entries `0 .. w-1` of `x` alone. -/
def ReadsBelow {P : Nat} (w : Nat) (F : (Nat → ZMod P) → Nat → ZMod P) : Prop :=
  ∀ x y, (∀ i < w, x i = y i) → ∀ i < w, F x i = F y i

theorem readsBelow_fieldArk {P w : Nat} (k : Nat → ZMod P) : ReadsBelow w (fieldArk k) :=
  fun _ _ hxy i hi => congrArg (· + k i) (hxy i hi)

theorem readsBelow_fieldPow {P w : Nat} (e : Nat) : ReadsBelow w (fieldPow (P := P) e) :=
  fun _ _ hxy i hi => congrArg (· ^ e) (hxy i hi)

theorem readsBelow_fieldMds {P w : Nat} (m : List (List Lane)) : ReadsBelow w (fieldMds (P := P) m w) :=
  fun _ _ hxy i _ => fieldMds_congr hxy i

/-- Two layers in order compute the composed field operation, and leave the lanes that both leave. -/
theorem HoldsBelow.trans {P w : Nat} {F : (Nat → ZMod P) → Nat → ZMod P} {y : Nat → ZMod P} {S T U : Lanes}
    (hF : ReadsBelow w F) (h₁ : HoldsBelow P w y S T) (h₂ : HoldsBelow P w (F (fieldLane P T)) T U) :
    HoldsBelow P w (F y) S U := by
  obtain ⟨low₁, frame₁⟩ := h₁
  obtain ⟨low₂, frame₂⟩ := h₂
  refine ⟨fun i hi => ?_, fun i hi => (frame₂ i hi).trans (frame₁ i hi)⟩
  obtain ⟨hval, hlt⟩ := low₂ i hi
  exact ⟨hval.trans (hF _ _ (fun j hj => (low₁ j hj).1) i hi), hlt⟩

/-- A layer holds what it computes, if it computes field elements (R12). -/
theorem layer_holdsBelow {P w : Nat} (hw : w ≤ 16) {f : Nat → Lane} {y : Nat → ZMod P} (S : Lanes)
    (hf : ∀ i < w, ((f i).toNat : ZMod P) = y i ∧ (f i).toNat < P) : HoldsBelow P w y S (layer w f S) := by
  refine ⟨fun i hi => ?_, fun i hi => ?_⟩
  · rw [fieldLane, laneAt_layer hw, if_pos hi]
    exact hf i hi
  · rw [laneAt_layer hw, if_neg hi.not_gt]

section HoldsBelow

variable {c : Params} (h : c.WellFormed)
include h

theorem arkFlat_holdsBelow (t : List Lane) (s : Nat) (S : Lanes) :
    HoldsBelow c.P 6 (fieldArk (fieldSlice c.P t s) (fieldLane c.P S)) S (arkFlat c t s S) :=
  layer_holdsBelow (by decide) S fun _ _ => ⟨fadd_cast h _ _, fadd_lt h _ _⟩

theorem sboxAll_holdsBelow {w : Nat} (hw : w ≤ 16) (S : Lanes) :
    HoldsBelow c.P w (fieldPow 3 (fieldLane c.P S)) S (sboxAll c w S) :=
  layer_holdsBelow hw S fun _ _ => ⟨sbox_cast h _, sbox_lt h _⟩

theorem isboxAll_holdsBelow {w : Nat} (hw : w ≤ 16) (S : Lanes) :
    HoldsBelow c.P w (fieldPow (alphaInv c.P) (fieldLane c.P S)) S (isboxAll c w S) :=
  layer_holdsBelow hw S fun _ _ => ⟨isbox_cast h _, fexp_lt h _ _⟩

/-! ## The fixed-width rounds (R141, R145, R148) -/

/-- HRESCUE's double round: six layers in R145's order. -/
theorem rescueRound_holdsBelow (k : Nat) (S : Lanes) :
    HoldsBelow c.P 6 (fieldRescue c k (fieldLane c.P S)) S (rescueRound c k S) := by
  have six : 6 ≤ 16 := by decide
  have inverted := isboxAll_holdsBelow h six S
  have first := (inverted.trans (readsBelow_fieldMds c.mdsR) (mds_holdsBelow h _ six _)).trans
    (readsBelow_fieldArk _) (arkFlat_holdsBelow h c.tR (2 * k + 1) _)
  have cubed := first.trans (readsBelow_fieldPow 3) (sboxAll_holdsBelow h six _)
  have second := (cubed.trans (readsBelow_fieldMds c.mdsR) (mds_holdsBelow h _ six _)).trans
    (readsBelow_fieldArk _) (arkFlat_holdsBelow h c.tR (2 * k + 2) _)
  exact second

end HoldsBelow

/-- HSPREAD's S-box layer in round `r` over the field: all six lanes in a full round, else lane 5 (R142). -/
def fieldSpreadSbox {P : Nat} (r : Nat) (a : Nat → ZMod P) : Nat → ZMod P :=
  fun l => if r < 4 ∨ 87 ≤ r ∨ l = 5 then a l ^ 3 else a l

theorem readsBelow_fieldSpreadSbox {P w : Nat} (r : Nat) : ReadsBelow w (fieldSpreadSbox (P := P) r) :=
  fun _ _ hxy i hi => by rw [fieldSpreadSbox, fieldSpreadSbox, hxy i hi]

theorem fieldSpreadSbox_of_full {P r : Nat} (hr : r < 4 ∨ 87 ≤ r) (a : Nat → ZMod P) :
    fieldSpreadSbox r a = fieldPow 3 a := funext fun _ => if_pos (hr.imp_right .inl)

theorem fieldSpreadSbox_of_partial {P r : Nat} (hr : ¬ (r < 4 ∨ 87 ≤ r)) (a : Nat → ZMod P) (l : Nat) :
    fieldSpreadSbox r a l = if l = 5 then a l ^ 3 else a l :=
  if_congr ⟨fun h => by omega, fun h => .inr (.inr h)⟩ rfl rfl

/-- Lanes 0 to 4 pass a partial round's S-box as they are, so they are canonical only if they were. -/
theorem spreadSbox_holdsBelow {c : Params} (h : c.WellFormed) (r : Nat) {A : Lanes}
    (hA : ∀ i < 6, (laneAt A i).toNat < c.P) :
    HoldsBelow c.P 6 (fieldSpreadSbox r (fieldLane c.P A)) A (if spreadFull r then sboxAll c 6 A else sboxLast c A) := by
  split
  · next hr =>
    rw [fieldSpreadSbox_of_full ((spreadFull_iff r).1 hr)]
    exact sboxAll_holdsBelow h (by decide) A
  · next hr =>
    refine layer_holdsBelow (by decide) A fun i hi => ?_
    rw [fieldSpreadSbox_of_partial (mt (spreadFull_iff r).2 hr)]
    split
    · exact ⟨sbox_cast h _, sbox_lt h _⟩
    · exact ⟨rfl, hA i hi⟩

/-- HSPREAD's round: constants, S-box, matrix. -/
theorem spreadRound_holdsBelow {c : Params} (h : c.WellFormed) (r : Nat) (S : Lanes) :
    HoldsBelow c.P 6 (fieldSpread c r (fieldLane c.P S)) S (spreadRound c r S) := by
  have constants := arkFlat_holdsBelow h c.tS r S
  have canonical : ∀ i < 6, (laneAt (arkFlat c c.tS r S) i).toNat < c.P := fun i hi => (constants.1 i hi).2
  have substituted := constants.trans (readsBelow_fieldSpreadSbox r) (spreadSbox_holdsBelow h r canonical)
  have mixed := substituted.trans (readsBelow_fieldMds c.mdsS) (mds_holdsBelow h c.mdsS (by decide) _)
  exact mixed

/-- HFEISTEL's round: `f` onto the old lanes 1 to 5, and the old lane 0, canonical if it was, into lane 5. -/
theorem feistelRound_holdsBelow {c : Params} (h : c.WellFormed) (r : Nat) {S : Lanes} (hS : (laneAt S 0).toNat < c.P) :
    HoldsBelow c.P 6 (fieldFeistel c r (fieldLane c.P S)) S (feistelRound c r S) := by
  rw [feistelRound, feistelStep]
  refine layer_holdsBelow (by decide) S fun i hi => ?_
  obtain hi5 | rfl := Nat.lt_succ_iff_lt_or_eq.1 hi
  · rw [if_pos hi5, fieldFeistel, if_neg hi5.ne, fadd_cast h, sbox_cast h, fadd_cast h]
    exact ⟨rfl, fadd_lt h _ _⟩
  · rw [if_neg (lt_irrefl 5), fieldFeistel, if_pos rfl]
    exact ⟨rfl, hS⟩

/-- Settles O18: the enabled step is HSPREAD's round, three layers over the field. -/
theorem spreadRoundFollowsItsRule : Obligations.SpreadRoundFollowsItsRule := fun _ h s hs =>
  ⟨_, stepWith_of_roundEnabled hs, spreadRound_holdsBelow h s.round.toNat s.lanes⟩

/-- Settles O19: the enabled step is HRESCUE's double round, six layers over the field. -/
theorem rescueRoundFollowsItsRule : Obligations.RescueRoundFollowsItsRule := fun _ h s hs =>
  ⟨_, stepWith_of_roundEnabled hs, rescueRound_holdsBelow h s.round.toNat s.lanes⟩

/-- Settles O20: the enabled step is `feistel_step`. -/
theorem feistelRoundFollowsItsRule : Obligations.FeistelRoundFollowsItsRule := fun _ h s hcan hs =>
  ⟨_, stepWith_of_roundEnabled hs, feistelRound_holdsBelow h s.round.toNat (hcan 0 (by decide))⟩

/-! ## Completion of the fixed-width commands (R146, R188) -/

/-- Settles O23: of a completion's writes these three commands make STATUS's and OUTBUF's; the final lanes are the old. -/
theorem fixedWidthCompletionWritesTwoLanes : Obligations.FixedWidthCompletionWritesTwoLanes := by
  intro c _ i s hi hs
  refine ⟨fixedResult s.lanes, ?_, resultBytes_wf s.lanes 2, resultBytes_holds s.lanes 2⟩
  rw [stepWith_of_completionEnabled hs]
  obtain rfl | rfl | rfl := hi
  · rfl
  · rfl
  · rfl

/-! ## A command left alone (R185 to R188) -/

/-- A machine that goes through the states `f 0, f 1, ..` is at `f n` after `n` steps. -/
theorem run_add_of_steps {M : Host.Core} {f : Nat → M.State} {n : Nat} (h : ∀ k < n, M.step (f k) = .next (f (k + 1)))
    (m : Nat) : M.run (n + m) (f 0) = M.run m (f n) := by
  induction n generalizing m with
  | zero => rw [Nat.zero_add]
  | succ n ih =>
    calc M.run (n + 1 + m) (f 0) = M.run (n + (m + 1)) (f 0) := by rw [Nat.add_right_comm, Nat.add_assoc]
      _ = M.run (m + 1) (f n) := ih (fun k hk => h k (Nat.lt_succ_of_lt hk)) (m + 1)
      _ = M.run m (f (n + 1)) := run_succ_of_next (h n (Nat.lt_succ_self n)) m

/-- The first `k` rounds of a command, in order. -/
def firstRounds (c : Params) (i : Instr) (k : Nat) (S : Lanes) : Lanes :=
  (List.range k).foldl (fun T r => roundLanes c i r T) S

theorem firstRounds_succ (c : Params) (i : Instr) (k : Nat) (S : Lanes) :
    firstRounds c i (k + 1) S = roundLanes c i k (firstRounds c i k S) := by
  rw [firstRounds, List.range_succ, List.foldl_append]
  rfl

theorem firstRounds_roundCount (c : Params) (i : Instr) (S : Lanes) :
    firstRounds c i (roundCount c i) S = allRounds c i S := rfl

/-- The state `k` engine steps after command `i`, presented in `s`, was accepted with lanes `S`. -/
def afterRounds (c : Params) (i : Instr) (s : State) (S : Lanes) (k : Nat) : State :=
  { acceptedFrame i s (firstRounds c i k S) with round := BitVec.ofNat 32 k }

theorem afterRounds_zero (c : Params) (i : Instr) (s : State) (S : Lanes) :
    afterRounds c i s S 0 = acceptedFrame i s S := rfl

/-- The state `K + 1` engine steps after the acceptance. -/
def completedFrame (c : Params) (i : Instr) (s : State) (S : Lanes) : State :=
  { acceptedFrame i s (finalLanes c i (allRounds c i S)) with
    busy := false, done := true, round := BitVec.ofNat 32 (roundCount c i), outbuf := finalOutbuf c i (allRounds c i S) }

section LeftAlone

variable {c : Params} (h : c.WellFormed) {i : Instr} {s : State} (hp : s.pending = []) (hr : s.resetIn = false) (S : Lanes)
include h

theorem afterRounds_round_toNat {k : Nat} (hk : k ≤ roundCount c i) : (afterRounds c i s S k).round.toNat = k := by
  have hK := roundCount_le h i
  exact Nat.mod_eq_of_lt (show k < 2 ^ 32 by omega)

include hp hr

theorem stepWith_afterRounds {k : Nat} (hk : k < roundCount c i) :
    stepWith c (afterRounds c i s S k) = .next (afterRounds c i s S (k + 1)) := by
  have hround : (afterRounds c i s S k).round.toNat = k := afterRounds_round_toNat h S hk.le
  have enabled : RoundEnabled c i (afterRounds c i s S k) := ⟨hp, hr, rfl, rfl, hround.symm ▸ hk⟩
  rw [stepWith_of_roundEnabled enabled, State.roundStep, hround, afterRounds, afterRounds, firstRounds_succ,
    BitVec.ofNat_add]
  rfl

theorem stepWith_afterRounds_roundCount :
    stepWith c (afterRounds c i s S (roundCount c i)) = .next (completedFrame c i s S) := by
  have enabled : CompletionEnabled c i (afterRounds c i s S (roundCount c i)) :=
    ⟨hp, hr, rfl, rfl, afterRounds_round_toNat h S le_rfl⟩
  rw [stepWith_of_completionEnabled enabled, afterRounds, firstRounds_roundCount]
  rfl

end LeftAlone

/-- `k` steps after acceptance the first `k` rounds are done, and as many steps remain as there are (R187). -/
theorem run_acceptedFrame_add {i : Instr} {s : State} (hp : s.pending = []) (hr : s.resetIn = false) (S : Lanes)
    {k : Nat} (hk : k ≤ roundCount Config.params i) (m : Nat) :
    Host.Core.run core (k + m) (acceptedFrame i s S) = Host.Core.run core m (afterRounds Config.params i s S k) := by
  have steps : ∀ j < k, step (afterRounds Config.params i s S j) = .next (afterRounds Config.params i s S (j + 1)) :=
    fun j hj => (step_eq_stepWith _).trans
      (stepWith_afterRounds Config.params_wellFormed hp hr S (hj.trans_le hk))
  rw [← afterRounds_zero Config.params]
  exact run_add_of_steps (M := core) steps m

theorem run_acceptedFrame {i : Instr} {s : State} (hp : s.pending = []) (hr : s.resetIn = false) (S : Lanes) :
    Host.Core.run core (roundCount Config.params i + 1) (acceptedFrame i s S) =
      .next (completedFrame Config.params i s S) := by
  have last : step (afterRounds Config.params i s S (roundCount Config.params i)) =
      .next (completedFrame Config.params i s S) :=
    (step_eq_stepWith _).trans (stepWith_afterRounds_roundCount Config.params_wellFormed hp hr S)
  rw [run_acceptedFrame_add hp hr S le_rfl, run_core_succ last]
  rfl

/-- Settles O26: acceptance, the `K` round steps one after another, and the completion step. -/
theorem acceptedCommandRunsItsPseudocode : Obligations.AcceptedCommandRunsItsPseudocode := fun i _ h hp hr =>
  ⟨_, _, exec_of_acceptable h, run_acceptedFrame hp hr _, finalOutbuf_wf _ i _,
    finalOutbuf_eq Config.params i _ ▸ resultBytes_holds _ _⟩

/-! ## What the result depends on (R150, R168) -/

section SameBytes

variable {buf buf' : Memory} {n : Nat}

theorem loadFixedLane_congr (h : ∀ k < n, byteAt buf k = byteAt buf' k) : loadFixedLane buf n = loadFixedLane buf' n :=
  funext fun i => congrArg leLane <| funext fun j => by
    split
    · next hk => exact h _ hk
    · rfl

theorem laneOf_congr (h : ∀ k < 16 * n, byteAt buf k = byteAt buf' k) {i : Nat} (hi : i < n) :
    laneOf buf i = laneOf buf' i :=
  congrArg (BitVec.ofNat 128) (leNat_congr fun j hj => h (16 * i + j) (by omega))

theorem fixedInput_congr (h : ∀ k < n, byteAt buf k = byteAt buf' k) : fixedInput buf n = fixedInput buf' n := by
  rw [fixedInput, fixedInput, loadFixedLane_congr h]

theorem loadFixed_congr (h : ∀ k < n, byteAt buf k = byteAt buf' k) : loadFixed buf n = loadFixed buf' n := by
  rw [loadFixed, loadFixed, loadFixedLane_congr h]

theorem elementInput_congr (h : ∀ k < 16 * n, byteAt buf k = byteAt buf' k) : elementInput buf n = elementInput buf' n :=
  List.map_congr_left fun _ hi => laneOf_congr h (List.mem_range.1 hi)

theorem loadElements_congr (h : ∀ k < 16 * n, byteAt buf k = byteAt buf' k) : loadElements buf n = loadElements buf' n :=
  congrArg lanesOf <| funext fun i => by
    split
    · next hi => exact laneOf_congr h hi
    · rfl

end SameBytes

section InputsAgree

variable {i : Instr} {s s' : State} (h : InputsAgree i s s')
include h

/-- Acceptance checks the same lanes or elements in both states (R181). -/
theorem InputsAgree.inputOf_eq : inputOf i s = inputOf i s' := by
  obtain ⟨hlen, hbytes⟩ := h
  unfold inputOf
  rw [← hlen]
  cases i with
  | hspread | hrescue | hfeistel => exact fixedInput_congr hbytes
  | sdigest | invmds => exact elementInput_congr hbytes

theorem InputsAgree.loadedLanes_eq (c : Params) :
    loadedLanes c i s.inbuf s.inlen.toNat = loadedLanes c i s'.inbuf s'.inlen.toNat := by
  obtain ⟨hlen, hbytes⟩ := h
  rw [← hlen]
  cases i with
  | hspread | hfeistel => exact loadFixed_congr hbytes
  | hrescue => exact congrArg (rescuePrologue c) (loadFixed_congr hbytes)
  | sdigest => exact congrArg (reverseLanes c.W) (loadElements_congr hbytes)
  | invmds => exact loadElements_congr hbytes

theorem InputsAgree.acceptable {c : Params} (ha : Acceptable c i s) (hidle : s'.busy = false) : Acceptable c i s' where
  idle := hidle
  length := h.1 ▸ ha.length
  canonical := (all_canon_inputOf c i s').1 (h.inputOf_eq ▸ (all_canon_inputOf c i s).2 ha.canonical)

end InputsAgree

/-- Settles O51: both states accept the command with the same lanes, and a run's lanes and OUTBUF are functions of those. -/
theorem resultDependsOnlyOnTheInput : Obligations.ResultDependsOnlyOnTheInput := by
  intro i s s' ha hidle h hp hp' hr hr'
  refine ⟨_, _, _, _, exec_of_acceptable ha, exec_of_acceptable (h.acceptable ha hidle), run_acceptedFrame hp hr _,
    run_acceptedFrame hp' hr' _, rfl, rfl, ?_, ?_⟩
  · rw [h.loadedLanes_eq]
    rfl
  · rw [h.loadedLanes_eq]
    rfl

end Sys2Proof.Machine

namespace Sys2Proof.Machine

/-! ## Acceptance of the sponge commands (R161, R162, R165, R182) -/

theorem laneAt_loadElements_toNat {n : Nat} (hn : n ≤ 16) (buf : Memory) (l : Nat) :
    (laneAt (loadElements buf n) l).toNat = if l < n then elementValue buf l else 0 := by
  rw [laneAt_loadElements hn]
  split
  · exact laneOf_toNat buf l
  · rfl

/-- R162: lane `l` of the reversed load is element `W - 1 - l`; from `W` on there is no element to reverse. -/
theorem laneAt_spongeLoad_toNat {c : Params} (h : c.WellFormed) {n : Nat} (hn : n ≤ c.W) (buf : Memory) (l : Nat) :
    (laneAt (spongeLoad c buf n) l).toNat = if l < c.W ∧ c.W - 1 - l < n then elementValue buf (c.W - 1 - l) else 0 := by
  have hn16 : n ≤ 16 := hn.trans h.w_le
  rw [spongeLoad]
  obtain hl | hl := lt_or_ge l c.W
  · rw [laneAt_reverseLanes_of_lt h.w_le _ hl, laneAt_loadElements_toNat hn16]
    simp only [hl, true_and]
  · rw [laneAt_reverseLanes_of_le h.w_le _ hl, laneAt_loadElements_toNat hn16, if_neg (hn.trans hl).not_gt,
      if_neg fun both => hl.not_gt both.1]

/-- Settles O15: the load of an accepted SDIGEST is `sponge_load`, and R6 keeps the rate within the width. -/
theorem sdigestAcceptedLoadsItsInputReversed : Obligations.SdigestAcceptedLoadsItsInputReversed := fun s h =>
  have fits : s.inlen.toNat ≤ Config.params.W := h.length.trans Config.params_wellFormed.r_le
  ⟨_, exec_of_acceptable h, fun l _ => laneAt_spongeLoad_toNat Config.params_wellFormed fits s.inbuf l⟩

/-- Settles O16: the load of an accepted INVMDS is its elements in order. -/
theorem invmdsAcceptedLoadsItsInput : Obligations.InvmdsAcceptedLoadsItsInput := fun s h =>
  have fits : s.inlen.toNat ≤ 16 := h.length.trans Config.params_wellFormed.w_le
  ⟨_, exec_of_acceptable h, fun l _ => laneAt_loadElements_toNat fits s.inbuf l⟩

/-! ## The sponge round (R163) -/

theorem ark2d_holdsBelow {c : Params} (h : c.WellFormed) (off col : Nat) (S : Lanes) :
    HoldsBelow c.P c.W (fieldArk (fieldColumn c off col) (fieldLane c.P S)) S (ark2d c off col S) :=
  layer_holdsBelow h.w_le S fun _ _ => ⟨fadd_cast h _ _, fadd_lt h _ _⟩

/-- SDIGEST's round: two half-rounds of constants, S-box layer and matrix, the second with the inverse S-box. -/
theorem spongeRound_holdsBelow {c : Params} (h : c.WellFormed) (i : Nat) (S : Lanes) :
    HoldsBelow c.P c.W (fieldSponge c i (fieldLane c.P S)) S (spongeRound c i S) := by
  have constants := ark2d_holdsBelow h 0 (i % c.C) S
  have cubed := constants.trans (readsBelow_fieldPow 3) (sboxAll_holdsBelow h h.w_le _)
  have first := cubed.trans (readsBelow_fieldMds c.mdsW) (mds_holdsBelow h c.mdsW h.w_le _)
  have secondConstants := first.trans (readsBelow_fieldArk _) (ark2d_holdsBelow h c.W (i % c.C) _)
  have inverted := secondConstants.trans (readsBelow_fieldPow (alphaInv c.P)) (isboxAll_holdsBelow h h.w_le _)
  have second := inverted.trans (readsBelow_fieldMds c.mdsW) (mds_holdsBelow h c.mdsW h.w_le _)
  exact second

/-- Settles O21: the enabled step is SDIGEST's round, six layers over the field. -/
theorem spongeRoundFollowsItsRule : Obligations.SpongeRoundFollowsItsRule := fun _ h s hs =>
  ⟨_, stepWith_of_roundEnabled hs, spongeRound_holdsBelow h s.round.toNat s.lanes⟩

/-! ## Completion of the sponge commands (R164, R166, R188) -/

/-- Settles O24: the final lanes are the reversal of the old, and OUTBUF is written from the final lanes. -/
theorem sdigestCompletionReversesAndWritesTheDigest : Obligations.SdigestCompletionReversesAndWritesTheDigest :=
  fun c h s hs =>
    ⟨spongeFinal c s.lanes, spongeResult c s.lanes, stepWith_of_completionEnabled hs,
      fun _ => laneAt_reverseLanes_of_lt h.w_le s.lanes, fun _ => laneAt_reverseLanes_of_le h.w_le s.lanes,
      resultBytes_wf _ c.D, resultBytes_holds _ c.D⟩

/-- Settles O25: INVMDS's completion keeps the lanes and writes the low `W` of them. -/
theorem invmdsCompletionWritesAllLanes : Obligations.InvmdsCompletionWritesAllLanes := fun c _ s hs =>
  ⟨invmdsResult c s.lanes, stepWith_of_completionEnabled hs, resultBytes_wf s.lanes c.W, resultBytes_holds s.lanes c.W⟩

end Sys2Proof.Machine

namespace Sys2Proof.Machine

/-! ## A command that is not accepted (R181, R201, R203) -/

section Check

variable {c : Params} {limit : Nat} {input : List Lane} {s : State}

theorem check_of_busy (hb : s.busy = true) : check c limit input s = some .busy := if_pos hb

theorem check_of_tooLong (hb : s.busy = false) (hl : limit < s.inlen.toNat) :
    check c limit input s = some .inputTooLong := by
  rw [check, if_neg (ne_true_of_eq_false hb), if_pos hl]

theorem check_of_noncanonical (hb : s.busy = false) (hl : s.inlen.toNat ≤ limit) (hc : ¬ input.all (canon c) = true) :
    check c limit input s = some .noncanonical := by
  rw [check, if_neg (ne_true_of_eq_false hb), if_neg (not_lt.2 hl), if_neg hc]

end Check

theorem presentCommand_of_check {c : Params} {i : Instr} {s : State} {e : Err}
    (h : check c (limitOf c i) (inputOf i s) s = some e) : presentCommand c i s = s.reject e := by
  rw [presentCommand_eq, State.present, h]

theorem exec_of_check {i : Instr} {s : State} {e : Err}
    (h : check Config.params (limitOf Config.params i) (inputOf i s) s = some e) :
    exec i s = .next (rejectedFrame (errCode e) s) := by
  rw [exec_eq_execWith, execWith, presentCommand_of_check h]
  rfl

/-- Settles O11: `check` finds the three errors in R181's order, and a command is rejected with the one it finds. -/
theorem commandIsRejectedWithItsFirstError : Obligations.CommandIsRejectedWithItsFirstError := fun i s =>
  ⟨fun hb => exec_of_check (check_of_busy hb), fun hb hl => exec_of_check (check_of_tooLong hb hl),
    fun hb hl hc => exec_of_check (check_of_noncanonical hb hl fun h => hc ((all_canon_inputOf _ i s).1 h))⟩

/-! ## One step of the sequencer (R53, R180, R187, R215) -/

/-- Settles O9: the step is the write to CMD, which runs what its word decodes to. -/
theorem stepRunsTheDecodedCommand : Obligations.StepRunsTheDecodedCommand := by
  intro s v rest i h hd
  rw [h.step_write rfl, hostWrite_cmd, presentWord_of_ok _ _ hd]
  rfl

theorem idleTurn_of_idle {c : Params} {s : State} (hb : s.busy = false) (hr : s.resetIn = false) :
    idleTurn c s = .next s := by
  rw [idleTurn, if_neg (ne_true_of_eq_false hr), if_neg (ne_true_of_eq_false hb)]

/-- Settles O56: a turn without an access is the engine's, which has no step enabled while BUSY = 0. -/
theorem idleBlockKeepsItsState : Obligations.IdleBlockKeepsItsState := by
  intro s hmove hb hr
  rw [step, machineStep, hmove, onEvent]
  exact idleTurn_of_idle (s := { s with pending := s.pending.tail }) hb hr

/-- Settles O27: `k` steps after the acceptance the machine is at `afterRounds`, whose ROUND is `k`. -/
theorem commandStaysBusyUntilItsLastStep : Obligations.CommandStaysBusyUntilItsLastStep := fun _ _ _ h hp hr hk =>
  ⟨_, _, exec_of_acceptable h, run_acceptedFrame_add hp hr _ hk 0, rfl, rfl,
    afterRounds_round_toNat Config.params_wellFormed _ hk, rfl, rfl⟩

/-! ## A running command under host accesses (R187, R191, R236)

The block is followed through `State.undisturbed`, FMPP's state but for ERR and ERRCODE: a host access leaves it as it is, and
the engine's turn is a function of it. -/

/-- The outcome is a next state with the events `p` still to come, whose block is `b`, ERR and ERRCODE apart. -/
def AnswersBlock (b : Fmpp) (p : List Event) (o : Host.Outcome State Fault Refusal) : Prop :=
  ∃ t, o = .next t ∧ t.undisturbed = b ∧ t.pending = p

/-- Block `b` runs command `i`, and R186 or R188 enables its next step. -/
structure Runs (c : Params) (i : Instr) (b : Fmpp) : Prop where
  busy : b.busy = true
  released : b.resetIn = false
  mode : opInstr b.lastop = some i
  round : b.round.toNat ≤ roundCount c i

/-- The engine's step on a block that runs command `i`: a round, or after the last one the completion (R186, R188). -/
def Fmpp.engineTurn (c : Params) (i : Instr) (b : Fmpp) : Fmpp :=
  if b.round.toNat < roundCount c i then
    { b with lanes := roundLanes c i b.round.toNat b.lanes, round := b.round + 1#32 }
  else
    { b with lanes := finalLanes c i b.lanes, outbuf := finalOutbuf c i b.lanes, busy := false, done := true }

/-- What a move that is no edge of the reset input does to a block that runs command `i`, ERR and ERRCODE apart. -/
def Fmpp.afterMove (c : Params) (i : Instr) (e : Event) (b : Fmpp) : Fmpp :=
  if e.isWait then b.engineTurn c i else b

section Running

variable {c : Params} {s : State}

theorem reject_answersBlock (e : Err) : AnswersBlock s.undisturbed s.pending (.next (s.reject e)) := ⟨_, rfl, rfl, rfl⟩

theorem answer_answersBlock (r : Reply) : AnswersBlock s.undisturbed s.pending (.next (s.answer r)) := ⟨_, rfl, rfl, rfl⟩

/-- While BUSY = 1 a write to CMD is rejected, whatever its word (R181, R203). -/
theorem presentWord_of_busy (hb : s.busy = true) (v : Word) :
    presentWord (execWith c) v s = .next (s.reject .busy) := by
  unfold presentWord
  split
  · rw [execWith, presentCommand_of_check (check_of_busy hb)]
  · rw [State.presentIllegal, if_pos hb]

theorem hostWrite_of_busy (hb : s.busy = true) (off : Nat) (v : Word) :
    AnswersBlock s.undisturbed s.pending (hostWrite (execWith c) off v s) := by
  have rejected : AnswersBlock s.undisturbed s.pending (.next ((s.answer .done).reject .busy)) :=
    reject_answersBlock (s := s.answer .done) .busy
  have hb : (s.answer .done).busy = true := hb
  unfold hostWrite
  split
  · rwa [presentWord_of_busy hb]
  split
  · rwa [writeInlen, if_pos hb]
  split
  · rwa [writeInbuf, if_pos hb]
  · exact answer_answersBlock .busError

theorem hostAccess_of_busy (hb : s.busy = true) (hr : s.resetIn = false) (a : Access) :
    AnswersBlock s.undisturbed s.pending (hostAccess c (execWith c) a s) := by
  unfold hostAccess
  rw [hr, if_neg Bool.false_ne_true]
  split
  · exact ⟨s, rfl, rfl, rfl⟩
  split
  · split
    · exact ⟨_, rfl, rfl, rfl⟩
    · exact hostWrite_of_busy hb _ _
  · exact answer_answersBlock .busError

variable {i : Instr}

theorem idleTurn_of_runs (h : Runs c i s.undisturbed) :
    AnswersBlock (s.undisturbed.engineTurn c i) s.pending (idleTurn c s) := by
  obtain ⟨busy, released, mode, round⟩ := h
  have turn : idleTurn c s = engineStep c s :=
    (if_neg (ne_true_of_eq_false released)).trans (if_pos busy)
  rw [turn, engineStep, show opInstr s.lastop = some i from mode, Fmpp.engineTurn]
  obtain hlt | heq := Nat.lt_or_eq_of_le round
  · rw [if_pos hlt]
    exact ⟨s.roundStep c i, if_pos hlt, rfl, rfl⟩
  · rw [if_neg heq.not_lt]
    exact ⟨s.complete c i, (if_neg heq.not_lt).trans (if_pos heq), rfl, rfl⟩

theorem onEvent_of_runs (h : Runs c i s.undisturbed) {e : Event} (he : e.isReset = false) :
    AnswersBlock (s.undisturbed.afterMove c i e) s.pending (onEvent c (execWith c) e s) := by
  cases e with
  | access a => exact hostAccess_of_busy h.busy h.released a
  | platform addr bytes op =>
    rw [onEvent]
    split
    · exact hostAccess_of_busy h.busy h.released _
    · exact ⟨s, rfl, rfl, rfl⟩
  | wait => exact idleTurn_of_runs h
  | assertReset | releaseReset => cases he

/-- A step of the machine while a command runs, with an event pending or without. -/
theorem step_of_runs (h : Runs Config.params i s.undisturbed) (he : s.move.isReset = false) :
    AnswersBlock (s.undisturbed.afterMove Config.params i s.move) s.pending.tail (step s) := by
  rw [step_eq_stepWith]
  exact onEvent_of_runs (s := { s with pending := s.pending.tail }) h he

end Running

/-- Command `i` is running at every one of the moves `es`, none of which is an edge of the reset input. -/
def RunsThrough (c : Params) (i : Instr) : List Event → Fmpp → Prop
  | [], _ => True
  | e :: es, b => e.isReset = false ∧ Runs c i b ∧ RunsThrough c i es (b.afterMove c i e)

/-- Below the last round a block still runs its command after a move, and a wait has added 1 to ROUND (R23). -/
theorem Runs.afterMove {c : Params} (h : c.WellFormed) {i : Instr} {b : Fmpp} (hb : Runs c i b) {e : Event} {n : Nat}
    (hk : b.round.toNat + (if e.isWait then n + 1 else n) ≤ roundCount c i) :
    Runs c i (b.afterMove c i e) ∧ (b.afterMove c i e).round.toNat + n ≤ roundCount c i := by
  rw [Fmpp.afterMove]
  split at hk
  · next hw =>
    have hlt : b.round.toNat < roundCount c i := by omega
    have hround : (b.round + 1#32).toNat = b.round.toNat + 1 :=
      roundStep_round_toNat (s := { toFmpp := b, pending := [], replies := [], draws := 0 }) h hlt
    rw [if_pos hw, Fmpp.engineTurn, if_pos hlt]
    exact ⟨⟨hb.busy, hb.released, hb.mode, by dsimp only; omega⟩, by dsimp only; omega⟩
  · next hw =>
    rw [if_neg hw]
    exact ⟨hb, hk⟩

/-- A command runs through moves whose waits, the last move aside, fit in its remaining rounds. -/
theorem runsThrough_of_waits_le {c : Params} (h : c.WellFormed) {i : Instr} {es : List Event} {b : Fmpp}
    (hreset : ∀ e ∈ es, e.isReset = false) (hb : Runs c i b)
    (hk : b.round.toNat + (es.dropLast.filter Event.isWait).length ≤ roundCount c i) : RunsThrough c i es b := by
  induction es generalizing b with
  | nil => exact trivial
  | cons e es ih =>
    obtain ⟨he, hes⟩ := List.forall_mem_cons.1 hreset
    refine ⟨he, hb, ?_⟩
    cases es with
    | nil => exact trivial
    | cons e' es =>
      rw [List.dropLast_cons_cons, List.filter_cons, apply_ite List.length, List.length_cons] at hk
      obtain ⟨hb', hk'⟩ := hb.afterMove h hk
      exact ih hes hb' hk'

/-- Two blocks equal but for ERR and ERRCODE run the same command, the first under the moves `es`, the second left alone for as
many engine turns as `es` has: they end equal again. -/
theorem run_interleaved {i : Instr} {es : List Event} {s s' : State} (hp : s.pending = es) (hp' : s'.pending = [])
    (hsame : s.undisturbed = s'.undisturbed) (hruns : RunsThrough Config.params i es s.undisturbed) :
    ∃ u v : State, Host.Core.run core es.length s = .next u ∧
      Host.Core.run core (es.filter Event.isWait).length s' = .next v ∧ u.undisturbed = v.undisturbed ∧ u.pending = [] := by
  induction es generalizing s s' with
  | nil => exact ⟨s, s', rfl, rfl, hsame, hp⟩
  | cons e es ih =>
    obtain ⟨he, hnow, hthen⟩ := hruns
    have hmove : s.move = e := State.move_cons hp
    obtain ⟨t, ht, hblock, htail⟩ := step_of_runs hnow (hmove ▸ he)
    rw [hmove] at hblock
    rw [hp, List.tail_cons] at htail
    rw [← hblock] at hthen
    rw [List.length_cons, run_core_succ ht, List.filter_cons]
    rw [Fmpp.afterMove] at hblock
    split
    · next hw =>
      have hmove' : s'.move = .wait := State.move_nil hp'
      obtain ⟨t', ht', hblock', htail'⟩ := step_of_runs (hsame ▸ hnow) (hmove' ▸ rfl)
      rw [hmove', ← hsame] at hblock'
      rw [hp', List.tail_nil] at htail'
      rw [if_pos hw] at hblock
      rw [List.length_cons, run_core_succ ht']
      exact ih htail htail' (hblock.trans hblock'.symm) hthen
    · next hw =>
      rw [if_neg hw] at hblock
      exact ih htail hp' (hblock.trans hsame) hthen

/-- Settles O50: the command runs through the pending events, and only their waits move the block. -/
theorem interleavingDoesNotChangeTheCommand : Obligations.InterleavingDoesNotChangeTheCommand := by
  intro s i hb hr ho hreset hk
  have runs : Runs Config.params i s.undisturbed := ⟨hb, hr, ho, (Nat.le_add_right _ _).trans hk⟩
  exact run_interleaved rfl rfl rfl (runsThrough_of_waits_le Config.params_wellFormed hreset runs hk)

end Sys2Proof.Machine

namespace Sys2Proof.Machine

/-! ## What an access leaves while BUSY = 1, and what clears ERR (R201, R206, R236) -/

/-- While BUSY = 1 a move that is neither a wait nor an edge of the reset input changes at most ERR and ERRCODE: it makes no
engine turn, and a write it makes is rejected. -/
theorem StepDid.undisturbed_of_access {c : Params} {e : Event} {s t : State} (hd : StepDid c e s t) (hb : s.busy = true)
    (hreset : e.isReset = false) (hwait : e.isWait = false) : t.undisturbed = s.undisturbed := by
  cases hd with
  | nothing | rejected => rfl
  | accepted _ _ _ _ _ ha => exact absurd (ha.idle.symm.trans hb) Bool.false_ne_true
  | wroteInlen _ hidle | wroteInbuf _ hidle => exact absurd (hidle.symm.trans hb) Bool.false_ne_true
  | round he | completed he => exact absurd (hwait.symm.trans he) Bool.false_ne_true
  | initialised _ cause =>
    obtain he | ⟨he, -⟩ := cause
    · exact absurd (hreset.symm.trans he) Bool.false_ne_true
    · exact absurd (hwait.symm.trans he) Bool.false_ne_true

/-- Settles O49: of the cases of a step an access that finds BUSY = 1 is left with a rejection or no change at all, and a
step only takes its event from those still to come. -/
theorem accessesDoNotDisturbARunningCommand : Obligations.AccessesDoNotDisturbARunningCommand := by
  intro s t e rest hb hp hreset hwait h
  obtain ⟨p, r, d, hd⟩ := step_did_withHost h
  rw [State.move_cons hp] at hd
  have same : t.undisturbed = s.undisturbed := hd.undisturbed_of_access hb hreset hwait
  have busy : t.undisturbed.busy = s.undisturbed.busy := congrArg Fmpp.busy same
  obtain ⟨-, taken⟩ := blockStepsUnderParametersAndTheHostsMove s
  exact ⟨same, busy.trans hb, by rw [taken t h, hp, List.tail_cons]⟩

/-- Settles O52: of the cases of a step only acceptance and reset have ERR = 0 where it was 1. -/
theorem errIsClearedOnlyByAcceptanceAndReset : Obligations.ErrIsClearedOnlyByAcceptanceAndReset := by
  intro s t h hset hclear
  obtain ⟨p, r, d, hd⟩ := step_did_withHost h
  cases hd with
  | nothing | wroteInlen | wroteInbuf | round | completed => exact absurd (hclear.symm.trans hset) Bool.false_ne_true
  | rejected => cases hclear
  | accepted _ _ _ i _ ha => exact .inr ⟨i, ⟨ha.idle, ha.length, ha.canonical⟩, rfl, rfl, rfl, rfl⟩
  | initialised _ cause => exact .inl (cause.imp id And.right)

end Sys2Proof.Machine

namespace Sys2Proof.Machine

/-! ## The reset input (R230 to R232, R240) -/

theorem State.initialised_toFmpp (s : State) (b : Bool) :
    (s.initialised b).toFmpp = { State.reset.toFmpp with resetIn := b } := rfl

/-- `HeldAtReset` speaks of FMPP's machine state alone: the host side of `s.initialised true` is that of `s`. -/
theorem heldAtReset_iff (s : State) :
    HeldAtReset s ↔ (s.resetIn = true → s.toFmpp = { State.reset.toFmpp with resetIn := true }) := by
  refine forall_congr' fun _ => ⟨congrArg State.toFmpp, fun hb => ?_⟩
  obtain ⟨b, p, r, d⟩ := s
  obtain rfl : b = { State.reset.toFmpp with resetIn := true } := hb
  rfl

theorem HeldAtReset.withHost {s : State} (hs : HeldAtReset s) (p : List Event) (r : List Reply) (d : Nat) :
    HeldAtReset { s with pending := p, replies := r, draws := d } :=
  (heldAtReset_iff _).2 ((heldAtReset_iff s).1 hs)

theorem heldAtReset_of_released {s : State} (hr : s.resetIn = false) : HeldAtReset s := fun h =>
  absurd (hr.symm.trans h) Bool.false_ne_true

theorem heldAtReset_initialised (s : State) (b : Bool) : HeldAtReset (s.initialised b) := fun h => by
  obtain rfl : b = true := h
  rfl

/-- A step that writes anything of the block, other than by the reset input, finds the input released and leaves it so. -/
theorem StepDid.keeps_heldAtReset {c : Params} {e : Event} {s t : State} (hd : StepDid c e s t) (hs : HeldAtReset s) :
    HeldAtReset t := by
  cases hd with
  | nothing => exact hs
  | rejected hr | accepted hr | wroteInlen hr | wroteInbuf hr => exact heldAtReset_of_released hr
  | round _ hr | completed _ hr => exact heldAtReset_of_released hr
  | initialised b => exact heldAtReset_initialised s b

/-- Settles O4: while the input is asserted the only cases of a step are those that change nothing and those that initialise
the block. -/
theorem assertedResetHoldsTheBlock : Obligations.AssertedResetHoldsTheBlock :=
  step_keeps (fun _ p r d hs => hs.withHost p r d) fun _ _ _ hd => hd.keeps_heldAtReset

/-- Settles O1: the registers by their reset values, the lanes and the buffers (empty lists of cells) by what they read as. -/
theorem resetLeavesTheBlockIdle : Obligations.ResetLeavesTheBlockIdle :=
  ⟨rfl, rfl, rfl, rfl, rfl, rfl, rfl, laneAt_reset, byteAt_nil, byteAt_nil⟩

/-- A step whose next event is an edge of the reset input takes the event and initialises the block (R230; log 18 for a release
that finds the input not asserted). -/
theorem step_resetEdge {s : State} {rest : List Event} (level : Bool)
    (h : s.pending = (if level then Event.assertReset else Event.releaseReset) :: rest) :
    step s = .next ({ s with pending := rest }.initialised level) := by
  rw [step_cons h]
  cases level <;> rfl

/-- Settles O3: initialising leaves the model's own fields as they are. -/
theorem resetInputInitialisesTheBlock : Obligations.ResetInputInitialisesTheBlock := fun _ _ level h =>
  ⟨_, step_resetEdge level h, State.initialised_toFmpp _ level, rfl, rfl, rfl⟩

theorem hostAccess_duringReset (c : Params) (ex : Instr → State → Host.Outcome State Fault Refusal) {a : Access} {s : State}
    (hr : s.resetIn = true) (hin : a.off < 0x400) : hostAccess c ex a s = .refused .accessDuringReset := by
  have inside : ¬ windowSize ≤ a.off := not_le.2 hin
  rw [hostAccess, if_neg inside, if_pos hr]

/-- Settles O5: the step makes the access, and the level of the reset input is looked at before the access is. -/
theorem accessDuringResetIsRefused : Obligations.AccessDuringResetIsRefused := by
  intro s a rest hp hr hin
  rw [step_cons hp, onEvent]
  exact hostAccess_duringReset _ _ hr hin

end Sys2Proof.Machine
